-- ==== Sys2Proof/Word.lean ====
section
/-! DEFINITION. The block's value types, with the widths of 00_scope.md rule R11: a byte is 8 bits, a serial
number 24 bits (rule R5), and a byte sequence a finite list of bytes with `s[0]` first (00_scope.md §5). Every value is
unsigned. -/

namespace Sys2Proof

/-- An unsigned 8-bit value: an operand byte, a frame byte, `ACC`, a checksum (rule R11). -/
abbrev Byte := BitVec 8

/-- A 24-bit unsigned serial number, `SERNO_BITS = 24` (rule R5). -/
abbrev Serno := BitVec 24

/-- A finite byte sequence; the head of the list is byte 0 (00_scope.md §5). -/
abbrev Bytes := List Byte

end Sys2Proof
end

