-- ==== Sys2Proof/Config.lean ====
section
/-! DEFINITION. What a block instance fixes when it is built (10_state.md rule R24, 00_scope.md rule R6 to rule R9,
20_memory.md rule R53), and the one value the spec leaves open, `K_LEN`. -/

namespace Sys2Proof

/-- The configuration of one block instance: fixed when the instance is built, read back and written by no operation
(10_state.md rule R24). -/
structure BlockConfig where
  /-- `K_LEN`, the length-field convention, 0, 1 or 2 (00_scope.md rule R6). -/
  kLen : Fin 3
  /-- `MAX_IN`, the optional bound on an input sequence; `none` is no limit (20_memory.md rule R53). -/
  maxIn : Option Nat
  deriving DecidableEq, Repr

/-- `K_LEN` of the built instance. It is OPEN: the spec forbids a guess (00_scope.md rule R6, 92_eei_decisions.md D10),
so it has no body and no proof can see which of the three values it is. Log entry 1. -/
opaque Config.builtKLen : Fin 3

/-- The built instance: the open `K_LEN`, and no input bound, which is the spec's default (92_eei_decisions.md D12).
Log entries 1 and 2. -/
def Config.built : BlockConfig := { kLen := Config.builtKLen, maxIn := none }

/-- `MAX_PAYLOAD` (00_scope.md rule R7). -/
abbrev Config.maxPayload : Nat := 250

/-- The smallest legal `MAX_IN`: the length of the longest valid frame (20_memory.md rule R53). -/
abbrev Config.minBound : Nat := 258

end Sys2Proof
end

