-- ==== Sys2Proof/Syntax.lean ====
section
/-! DEFINITION. The block's operations (30_encoding.md rule R70) as typed instructions, and the request record the host
hands to the block (10_state.md rule R29). The record's fields are plain numbers, so that a value wider than its field can be
said, and refused, and never truncated (60_exceptions.md rule R165). -/

namespace Sys2Proof

/-- The six operation names of 30_encoding.md rule R70, without their operands. -/
inductive Op where
  | crcClr | crcFeed | crcRead | crcCalc | frmPack | frmUnpack
  deriving DecidableEq, Repr

/-- One operation with its operands, each of exactly the width of 10_state.md rule R29. -/
inductive Instr where
  /-- `CRC.CLR` (rule R104). -/
  | crcClr
  /-- `CRC.FEED b` (rule R105). -/
  | crcFeed (b : Byte)
  /-- `CRC.READ` (rule R106). -/
  | crcRead
  /-- `CRC.CALC data` (rule R103). -/
  | crcCalc (data : Bytes)
  /-- `FRM.PACK serno, cmd, payload` (rule R120). -/
  | frmPack (serno : Serno) (cmd : Byte) (payload : Option Bytes)
  /-- `FRM.UNPACK buf` (rule R130). -/
  | frmUnpack (buf : Bytes)
  deriving DecidableEq, Repr

/-- The operand part of a request record, as the host hands it over, before any width is checked (rule R29). -/
inductive Operands where
  | noOperands
  | byte (b : Nat)
  | data (data : List Nat)
  | packet (serno cmd : Nat) (payload : Option (List Nat))
  | buffer (buf : List Nat)
  deriving DecidableEq, Repr

/-- A request record `{op, operands}` (rule R29). -/
structure Request where
  op : Nat
  operands : Operands
  deriving DecidableEq, Repr

end Sys2Proof
end

