-- ==== Sys2Proof/WellFormed.lean ====
section
/-! DEFINITION. The checks that make a request one of the interface (10_state.md rule R29) and a configuration one of the
spec (20_memory.md rule R53). They are written field by field from the spec's tables, apart from the decoder, so that
the two can be held against each other. An `Instr` needs no check: its types are its widths. -/

namespace Sys2Proof

/-- The six legal operation codes (30_encoding.md rule R70). -/
def legalOp (op : Nat) : Bool := (0x10 ≤ op && op ≤ 0x13) || op == 0x20 || op == 0x21

/-- A number an 8-bit field can hold. -/
def fitsByte (n : Nat) : Bool := n < 256

/-- A number the 24-bit serial-number field can hold (00_scope.md rule R5). -/
def fitsSerno (n : Nat) : Bool := n ≤ 16777215

/-- Each operand of the record fits its field (rule R29). -/
def Operands.widthsFit : Operands → Bool
  | .noOperands => true
  | .byte b => fitsByte b
  | .data d => d.all fitsByte
  | .packet serno cmd payload => fitsSerno serno && fitsByte cmd && (payload.getD []).all fitsByte
  | .buffer b => b.all fitsByte

/-- The record's operands are the ones rule R29 gives its `op`. -/
def Request.shapeFits (r : Request) : Bool :=
  match r.operands with
  | .noOperands => r.op == 0x10 || r.op == 0x12
  | .byte _ => r.op == 0x11
  | .data _ => r.op == 0x13
  | .packet _ _ _ => r.op == 0x20
  | .buffer _ => r.op == 0x21

/-- The number of bytes in the record's input sequence, 0 where it has none (20_memory.md rule R53). -/
def Operands.inputLength : Operands → Nat
  | .noOperands | .byte _ => 0
  | .data d => d.length
  | .packet _ _ payload => (payload.getD []).length
  | .buffer b => b.length

/-- A record that carries one of the six operations: a legal code, its own operands, every operand in its width. -/
def Request.wf (r : Request) : Bool := legalOp r.op && r.shapeFits && r.operands.widthsFit

/-- A configuration the spec allows: `MAX_IN`, where there is one, is at least 258 (rule R53). -/
def BlockConfig.wf (c : BlockConfig) : Bool :=
  match c.maxIn with
  | none => true
  | some bound => Config.minBound ≤ bound

end Sys2Proof
end

