-- ==== Sys2Proof/Decode.lean ====
section
/-! DEFINITION. From a request record to an instruction (30_encoding.md rule R70, rule R71, rule R74), total on every
record, each rejection under its own name; and back, the encoder. The operation table is a list of rows with the match
and mask of spec/opcode_table.json. -/

namespace Sys2Proof

/-- One row of the operation table: the codes `op` with `op AND mask = pattern` name `name` (rule R70). -/
structure OpRow where
  name : Op
  pattern : Byte
  mask : Byte
  deriving DecidableEq, Repr

/-- The operation table (30_encoding.md rule R70; each row matches all 8 bits). -/
def opTable : List OpRow :=
  [ { name := .crcClr,    pattern := 0x10, mask := 0xFF },
    { name := .crcFeed,   pattern := 0x11, mask := 0xFF },
    { name := .crcRead,   pattern := 0x12, mask := 0xFF },
    { name := .crcCalc,   pattern := 0x13, mask := 0xFF },
    { name := .frmPack,   pattern := 0x20, mask := 0xFF },
    { name := .frmUnpack, pattern := 0x21, mask := 0xFF } ]

/-- The operation a code names; `none` for the 250 illegal codes (rule R71). -/
def decodeOp (op : Byte) : Option Op :=
  (opTable.find? fun row => op &&& row.mask == row.pattern).map OpRow.name

/-- Why a record is no instruction. -/
inductive DecodeError where
  /-- The code is none of the table's (rule R71); the block answers `E_ILLOP`. -/
  | illegalOp (op : Byte)
  /-- The code is wider than 8 bits (rule R29). -/
  | wideOp (op : Nat)
  /-- A byte operand is wider than 8 bits (60_exceptions.md rule R165). -/
  | wideByte (n : Nat)
  /-- The serial number is wider than 24 bits (60_exceptions.md rule R165). -/
  | wideSerno (n : Nat)
  /-- The operands are not the ones rule R29 gives this code. -/
  | operandMismatch (op : Byte)
  deriving DecidableEq, Repr

/-- A number taken as a byte operand, never truncated (92_eei_decisions.md D11). -/
def toByte (n : Nat) : Except DecodeError Byte :=
  if n < 256 then .ok (BitVec.ofNat 8 n) else .error (.wideByte n)

/-- A number taken as a serial number, never truncated (92_eei_decisions.md D11). -/
def toSerno (n : Nat) : Except DecodeError Serno :=
  if n < 16777216 then .ok (BitVec.ofNat 24 n) else .error (.wideSerno n)

/-- Numbers taken as a byte sequence, in index order (20_memory.md rule R42). -/
def toBytes : List Nat → Except DecodeError Bytes
  | [] => .ok []
  | n :: ns =>
    match toByte n, toBytes ns with
    | .ok b, .ok bs => .ok (b :: bs)
    | .error e, _ => .error e
    | .ok _, .error e => .error e

/-- Numbers taken as an optional byte sequence: `None` stays `None`, and `Some []` stays `Some []` (rule R29). -/
def toPayload : Option (List Nat) → Except DecodeError (Option Bytes)
  | none => .ok none
  | some ns => (toBytes ns).map some

/-- The code rule R70 assigns to an operation. -/
def Op.code : Op → Byte
  | .crcClr => 0x10
  | .crcFeed => 0x11
  | .crcRead => 0x12
  | .crcCalc => 0x13
  | .frmPack => 0x20
  | .frmUnpack => 0x21

/-- The typed operands of an operation, out of the record's operand part (rule R29, rule R74). -/
def decodeOperands (op : Op) (operands : Operands) : Except DecodeError Instr :=
  match op, operands with
  | .crcClr, .noOperands => .ok .crcClr
  | .crcFeed, .byte b => (toByte b).map .crcFeed
  | .crcRead, .noOperands => .ok .crcRead
  | .crcCalc, .data d => (toBytes d).map .crcCalc
  | .frmPack, .packet serno cmd payload =>
    match toSerno serno, toByte cmd, toPayload payload with
    | .ok serno, .ok cmd, .ok payload => .ok (.frmPack serno cmd payload)
    | .error e, _, _ => .error e
    | _, .error e, _ => .error e
    | _, _, .error e => .error e
  | .frmUnpack, .buffer b => (toBytes b).map .frmUnpack
  | op, _ => .error (.operandMismatch op.code)

/-- The instruction a request record carries. The code is looked at before anything else (60_exceptions.md rule
R164). -/
def decode (r : Request) : Except DecodeError Instr :=
  if r.op < 256 then
    match decodeOp (BitVec.ofNat 8 r.op) with
    | none => .error (.illegalOp (BitVec.ofNat 8 r.op))
    | some op => decodeOperands op r.operands
  else .error (.wideOp r.op)

/-- A byte sequence as the record's numbers. -/
def ofBytes (s : Bytes) : List Nat := s.map BitVec.toNat

/-- The request record of an instruction: its code of rule R70 and the operands of rule R29. -/
def encode : Instr → Request
  | .crcClr => { op := 0x10, operands := .noOperands }
  | .crcFeed b => { op := 0x11, operands := .byte b.toNat }
  | .crcRead => { op := 0x12, operands := .noOperands }
  | .crcCalc d => { op := 0x13, operands := .data (ofBytes d) }
  | .frmPack serno cmd payload =>
    { op := 0x20, operands := .packet serno.toNat cmd.toNat (payload.map ofBytes) }
  | .frmUnpack b => { op := 0x21, operands := .buffer (ofBytes b) }

/-- The operand part of a record whose operands are all zero: a zero byte, a zero serial number, an absent payload, an
empty sequence. The opcode table gives operands no bits (rule R70). Log entry 8. -/
def zeroOperands (op : Nat) : Operands :=
  match decodeOp (BitVec.ofNat 8 op) with
  | some .crcFeed => .byte 0
  | some .crcCalc => .data []
  | some .frmPack => .packet 0 0 none
  | some .frmUnpack => .buffer []
  | some .crcClr | some .crcRead | none => .noOperands

/-- The request whose bits, numbered as spec/opcode_table.json numbers them, are the low `nbits` of `w`: the table's 8 bits
are `op`, and every operand is zero. Log entry 8. -/
def tableRequest (nbits w : Nat) : Request :=
  let op := w % 2 ^ nbits
  { op := op, operands := zeroOperands op }

/-- The instruction the decoder reads from a table word. -/
def decodeTableWord (nbits w : Nat) : Option Instr :=
  match decode (tableRequest nbits w) with
  | .ok i => some i
  | .error _ => none

/-- The pseudo-operation `crc.feedn [b0, ..., bk]`: one `CRC.FEED` for each byte, in order (30_encoding.md rule R73). -/
def feedn (s : Bytes) : List Instr := s.map .crcFeed

end Sys2Proof
end

