-- ==== Sys2Proof/Machine/State.lean ====
section
/-! DEFINITION. What the machine holds. The block's own state is one register, `ACC` (10_state.md rule R22); its
configuration is fixed at build (rule R24). Beside them stand the host's two lists, which make a run (70_reset_and_hazards.md
rule R192): the requests still to be issued, and the responses returned so far. -/

namespace Sys2Proof.Machine

open Sys2Proof

/-- The result of a successful `FRM.UNPACK`: five fields and no others (41_framer.md rule R135). -/
structure Unpacked where
  state : Byte
  command : Byte
  length : Byte
  serno : Serno
  payload : Option Bytes
  deriving DecidableEq, Repr

/-- The results of an operation that completed with `OK` (10_state.md rule R30). -/
inductive Results where
  /-- `CRC.CLR` and `CRC.FEED` return none. -/
  | noResults
  /-- `CRC.READ` and `CRC.CALC` return a checksum. -/
  | crc (crc : Byte)
  /-- `FRM.PACK` returns a frame. -/
  | frame (frame : Bytes)
  /-- `FRM.UNPACK` returns the record of rule R135. -/
  | unpacked (u : Unpacked)
  deriving DecidableEq, Repr

/-- The error statuses, each with the `info` its row of 60_exceptions.md rule R160 records. -/
inductive BlockError where
  /-- `E_OVERSIZE`, with the payload length. -/
  | oversize (n : Nat)
  /-- `E_TRUNC`, with the buffer length. -/
  | trunc (len : Nat)
  /-- `E_HCRC`, with the received header checksum. -/
  | hcrc (received : Byte)
  /-- `E_LEN`, with the length byte and the buffer length. -/
  | len (l : Byte) (len : Nat)
  /-- `E_PCRC`, with the received payload checksum. -/
  | pcrc (received : Byte)
  /-- `E_ILLOP`, with the operation code. -/
  | illop (op : Byte)
  deriving DecidableEq, Repr

/-- A response (10_state.md rule R30): `OK` with results, or an error status with its `info` and no results (60_exceptions.md
rule R163). The 8-bit status is `Response.statusCode`. -/
inductive Response where
  | ok (results : Results)
  | error (e : BlockError)
  deriving DecidableEq, Repr

/-- The machine's state. -/
structure State where
  /-- The instance's configuration; no step writes it (10_state.md rule R24). Log entry 1. -/
  cfg : BlockConfig
  /-- `ACC`, the CRC engine's 8-bit accumulator, the block's only register (10_state.md rule R23). -/
  acc : Byte
  /-- The host's requests still to be issued in this run, the next one first (70_reset_and_hazards.md rule R192). Log entry 3. -/
  script : List Request
  /-- The responses returned so far, the first one first (70_reset_and_hazards.md rule R192). Log entry 3. -/
  responses : List Response
  deriving DecidableEq, Repr

/-- No request stops the block with a fault: an error status is a normal response (60_exceptions.md rule R165), and a
request outside the interface is a refusal. The type has no constructor, so no step can answer a fault. Log entry 12. -/
inductive Fault where
  deriving DecidableEq, Repr

/-- Why a request has no step (60_exceptions.md rule R165). Every one is raised by `Machine.issue` before any effect, and every
one is safe: the model stops and nothing is truncated. -/
inductive Refusal where
  /-- An instruction without a meaning, by its mnemonic; raised by no arm of this model. Safe. -/
  | notModelled (mnemonic : String)
  /-- The operation code is wider than its 8-bit field (10_state.md rule R29). Safe. Log entry 5. -/
  | wideOp (op : Nat)
  /-- A byte operand is wider than 8 bits (60_exceptions.md rule R165). Safe. -/
  | wideByte (n : Nat)
  /-- The serial number is wider than 24 bits (60_exceptions.md rule R165). Safe. -/
  | wideSerno (n : Nat)
  /-- The record's operands are not those of its operation (10_state.md rule R29). Safe. Log entry 6. -/
  | operandMismatch (op : Byte)
  /-- An input sequence is longer than the configured `MAX_IN` (20_memory.md rule R53). Safe. -/
  | inputTooLong (len bound : Nat)
  deriving DecidableEq, Repr

/-- The machine right after an instance with configuration `cfg` is created: `ACC` is 0x00, the configuration is as built, and
the host has issued nothing (70_reset_and_hazards.md rule R190). -/
def State.resetWith (cfg : BlockConfig) : State :=
  { cfg := cfg, acc := 0x00, script := [], responses := [] }

/-- The machine right after reset, with `K_LEN` open (70_reset_and_hazards.md rule R190, 00_scope.md rule R6). -/
def State.reset : State := State.resetWith Config.built

end Sys2Proof.Machine
end

