-- ==== Sys2Proof/Machine/Operands.lean ====
section
/-! DEFINITION. The operand forms: bytes, slices and bits of a sequence (00_scope.md §5), the three bytes of a serial
number (30_encoding.md rule R62), and the length of an operation's input sequence (20_memory.md rule R53). -/

namespace Sys2Proof.Machine

open Sys2Proof

/-- `s[i]`; every use in the framer is within the sequence. -/
def byteAt (s : Bytes) (i : Nat) : Byte := s.getD i 0

/-- `s[a..b)`, the bytes `a` to `b - 1`. -/
def slice (s : Bytes) (a b : Nat) : Bytes := (s.take b).drop a

/-- Frame bit `8·i + j` is bit `j` of byte `i` (30_encoding.md rule R61). -/
def frameBit (f : Bytes) (k : Nat) : Bool := (byteAt f (k / 8)).getLsbD (k % 8)

/-- The sequence with frame bit `k` inverted (30_encoding.md rule R61; used by 41_framer.md rule R141). -/
def flipBit (f : Bytes) (k : Nat) : Bytes := f.modify (k / 8) (· ^^^ (1#8 <<< (k % 8)))

/-- The bytes of a serial number, least significant first (20_memory.md rule R41, 30_encoding.md rule R62). -/
def sernoBytes (v : Serno) : Bytes := [v.extractLsb' 0 8, v.extractLsb' 8 8, v.extractLsb' 16 8]

/-- `zext_24(b0) | (zext_24(b1) << 8) | (zext_24(b2) << 16)` (30_encoding.md rule R62). -/
def sernoOfBytes (b0 b1 b2 : Byte) : Serno :=
  b0.zeroExtend 24 ||| (b1.zeroExtend 24 <<< 8) ||| (b2.zeroExtend 24 <<< 16)

/-- The number of bytes in an operation's input sequence: `data`, the payload, or `buf` (20_memory.md rule R53). -/
def inputLength : Instr → Nat
  | .crcClr => 0
  | .crcFeed _ => 0
  | .crcRead => 0
  | .crcCalc d => d.length
  | .frmPack _ _ payload => (payload.getD []).length
  | .frmUnpack b => b.length

/-- The input is no longer than the configured `MAX_IN`, where one is configured (20_memory.md rule R53). -/
def withinBound (c : BlockConfig) (i : Instr) : Bool :=
  match c.maxIn with
  | none => true
  | some bound => inputLength i ≤ bound

end Sys2Proof.Machine
end

