-- ==== Sys2Proof/Machine/Ops.lean ====
section
/-! DEFINITION. The shared operations on the state: completing an operation, raising an error status (the block's only
form of exception, 60_exceptions.md rule R167), and what the interface does with a request that is none. -/

namespace Sys2Proof.Machine

open Sys2Proof

/-- The outcome type of the machine's steps. -/
abbrev StepOutcome := Host.Outcome State Fault Refusal

/-- Return one response to the host; nothing else changes (10_state.md rule R30). -/
def State.respond (s : State) (r : Response) : State := { s with responses := s.responses ++ [r] }

/-- `ACC <- v` (10_state.md rule R23). -/
def State.setAcc (s : State) (v : Byte) : State := { s with acc := v }

/-- The operation completed: `status = OK` with its results (10_state.md rule R30). -/
def State.complete (s : State) (r : Results) : State := s.respond (.ok r)

/-- `raise e`: the error status with its `info`, no results, and no other change (60_exceptions.md rule R163). The block saves
no state, changes no mode and redirects no control (rule R167), and there is no return from an error (rule R168). -/
def State.raise (s : State) (e : BlockError) : State := s.respond (.error e)

/-- The response of a computation that either gives a value or raises an error (00_scope.md §5). -/
def State.finish {α : Type} (s : State) (result : α → Results) (x : Except BlockError α) : State :=
  match x with
  | .ok a => s.complete (result a)
  | .error e => s.raise e

/-- With no request to perform the block is idle and keeps `ACC` (60_exceptions.md rule R175). Log entry 4. -/
def idle (s : State) : StepOutcome := .next s

/-- What the interface does with a record that is no instruction: an illegal code is answered with `E_ILLOP` (30_encoding.md
rule R71); a record outside the interface has no step (60_exceptions.md rule R165). -/
def reject (e : DecodeError) (s : State) : StepOutcome :=
  match e with
  | .illegalOp op => .next (s.raise (.illop op))
  | .wideOp op => .refused (.wideOp op)
  | .wideByte n => .refused (.wideByte n)
  | .wideSerno n => .refused (.wideSerno n)
  | .operandMismatch op => .refused (.operandMismatch op)

end Sys2Proof.Machine
end

