-- ==== Sys2Proof/Machine/Framer.lean ====
section
/-! DEFINITION. The packet framer (41_framer.md) over the frame layout of 30_encoding.md: building a request frame, checking
and taking apart a received one, and the meanings of `FRM.PACK` and `FRM.UNPACK`. Every function takes `K_LEN` as its
argument `k` (00_scope.md rule R6). -/

namespace Sys2Proof.Machine

open Sys2Proof

/-- `REQ_MARKER`, byte 0 of a frame built by `FRM.PACK` (00_scope.md rule R8). -/
def reqMarker : Byte := 0xFD

/-- The length byte `L` of a frame with `n` payload bytes (30_encoding.md rule R63). -/
def lengthByte (k : Fin 3) (n : Nat) : Byte := if n = 0 then 0 else BitVec.ofNat 8 (n + k.val)

/-- The frame length a receiver works out from byte 2 alone (30_encoding.md rule R67). -/
def expectedLen (k : Fin 3) (l : Byte) : Option Nat :=
  if l = 0 then some 7
  else if k.val + 1 ≤ l.toNat ∧ l.toNat ≤ 250 + k.val then some (8 + (l.toNat - k.val))
  else none

/-- The six header bytes (30_encoding.md rule R61, rule R62). -/
def header (state cmd l : Byte) (serno : Serno) : Bytes := state :: cmd :: l :: sernoBytes serno

/-- A sequence followed by its checksum (30_encoding.md rule R64). -/
def withCrc (s : Bytes) : Bytes := s ++ [crc8 s]

/-- The frame of rule R60 with `state` in byte 0: header and checksum, then, where the payload is not empty, the payload and the
checksum of all before it (30_encoding.md rule R60, rule R64). -/
def buildFrame (k : Fin 3) (state cmd : Byte) (serno : Serno) (p : Bytes) : Bytes :=
  let h := withCrc (header state cmd (lengthByte k p.length) serno)
  if p.length = 0 then h else withCrc (h ++ p)

/-- `FRM.PACK` on its operands (41_framer.md rule R120). -/
def pack (k : Fin 3) (serno : Serno) (cmd : Byte) (payload : Option Bytes) : Except BlockError Bytes :=
  let p := payload.getD []
  if p.length > Config.maxPayload then .error (.oversize p.length)
  else .ok (buildFrame k reqMarker cmd serno p)

/-- The record of a buffer whose checks have passed (41_framer.md rule R135). -/
def unpackedOf (buf : Bytes) (payload : Option Bytes) : Unpacked :=
  { state := byteAt buf 0
    command := byteAt buf 1
    length := byteAt buf 2
    serno := sernoOfBytes (byteAt buf 3) (byteAt buf 4) (byteAt buf 5)
    payload := payload }

/-- The checks of a frame whose length byte is not 0, after its header checksum (41_framer.md rule R133, rule R134). -/
def unpackPayload (k : Fin 3) (buf : Bytes) : Except BlockError Unpacked :=
  let l := byteAt buf 2
  if l.toNat < k.val + 1 ∨ l.toNat > 250 + k.val then .error (.len l buf.length)
  else
    let n := l.toNat - k.val
    if buf.length ≠ 8 + n then .error (.len l buf.length)
    else if byteAt buf (7 + n) ≠ crc8 (slice buf 0 (7 + n)) then .error (.pcrc (byteAt buf (7 + n)))
    else .ok (unpackedOf buf (some (slice buf 7 (7 + n))))

/-- `FRM.UNPACK` on its operand, the checks in the order of 41_framer.md rule R130. On some parts of split replies, and on bytes
before a reply, 70_reset_and_hazards.md rule R196 names another status than rule R130: DEDUCED, log entry 9. -/
def unpack (k : Fin 3) (buf : Bytes) : Except BlockError Unpacked :=
  if buf.length < 7 then .error (.trunc buf.length)
  else if byteAt buf 6 ≠ crc8 (slice buf 0 6) then .error (.hcrc (byteAt buf 6))
  else if byteAt buf 2 = 0 then
    if buf.length ≠ 7 then .error (.len (byteAt buf 2) buf.length)
    else .ok (unpackedOf buf none)
  else unpackPayload k buf

/-- `FRM.PACK serno, cmd, payload` (41_framer.md rule R120). -/
def execFrmPack (serno : Serno) (cmd : Byte) (payload : Option Bytes) (s : State) : StepOutcome :=
  .next (s.finish .frame (pack s.cfg.kLen serno cmd payload))

/-- `FRM.UNPACK buf` (41_framer.md rule R130). -/
def execFrmUnpack (buf : Bytes) (s : State) : StepOutcome :=
  .next (s.finish .unpacked (unpack s.cfg.kLen buf))

end Sys2Proof.Machine
end

