-- ==== Sys2Proof/Machine/Dispatch.lean ====
section
/-! DEFINITION. One arm for each of the six operations of 30_encoding.md rule R70. -/

namespace Sys2Proof.Machine

open Sys2Proof

/-- The meaning of an operation. -/
def exec (i : Instr) (s : State) : Host.Outcome State Fault Refusal :=
  match i with
  | .crcClr => Sys2Proof.Machine.execCrcClr s
  | .crcFeed b => Sys2Proof.Machine.execCrcFeed b s
  | .crcRead => Sys2Proof.Machine.execCrcRead s
  | .crcCalc data => Sys2Proof.Machine.execCrcCalc data s
  | .frmPack serno cmd payload => Sys2Proof.Machine.execFrmPack serno cmd payload s
  | .frmUnpack buf => Sys2Proof.Machine.execFrmUnpack buf s

end Sys2Proof.Machine
end

