-- ==== Sys2Proof/Machine/Interface.lean ====
section
/-! DEFINITION. What the block does with one request record the host hands it (10_state.md rule R29, rule R33). -/

namespace Sys2Proof.Machine

open Sys2Proof

/-- One request, handed to the block: the record is decoded, an input longer than `MAX_IN` is refused (20_memory.md rule R53), and
the operation is performed as one atomic step (20_memory.md rule R45). -/
def issue (r : Request) (s : State) : StepOutcome :=
  match decode r with
  | .ok i =>
    if withinBound s.cfg i then exec i s
    else .refused (.inputTooLong (inputLength i) (s.cfg.maxIn.getD 0))
  | .error e => reject e s

end Sys2Proof.Machine
end

