-- ==== Sys2Proof/Machine/Step.lean ====
section
/-! DEFINITION. One step of a run (70_reset_and_hazards.md rule R192): the host issues its next request and the block performs it,
so requests are taken in order and never overlap (10_state.md rule R33, 20_memory.md rule R46). -/

namespace Sys2Proof.Machine

open Sys2Proof

/-- One step: the next request of the run, or nothing where the host has none left (60_exceptions.md rule R175). -/
def step (s : State) : Host.Outcome State Fault Refusal :=
  match s.script with
  | [] => idle s
  | r :: rest => issue r { s with script := rest }

/-- The state whose next request is the table word's, every operand zero. The block fetches nothing (10_state.md rule R21): its
next operation is the first request of the host's script. Log entries 3 and 8. -/
def State.withFetchWord (s : State) (nbits w : Nat) : State :=
  { s with script := tableRequest nbits w :: s.script.tail }

end Sys2Proof.Machine
end

