-- ==== Sys2Proof/Machine/Flags.lean ====
section
/-! DEFINITION. The block has no flags and no condition codes: an outcome is the `status` of the operation's own response
(10_state.md rule R25). This file gives that status its 8-bit code and its class of the source (60_exceptions.md
rule R160). -/

namespace Sys2Proof.Machine

/-- The 8-bit code of an error status (60_exceptions.md rule R160). -/
def BlockError.code : BlockError → Byte
  | .oversize _ => 0x01
  | .trunc _ => 0x02
  | .hcrc _ => 0x03
  | .len _ _ => 0x04
  | .pcrc _ => 0x05
  | .illop _ => 0xFF

/-- The `status` field of a response (60_exceptions.md rule R160). -/
def Response.statusCode : Response → Byte
  | .ok _ => 0x00
  | .error e => e.code

/-- The results field of a response, present only when the status is `OK` (10_state.md rule R30). -/
def Response.results? : Response → Option Results
  | .ok r => some r
  | .error _ => none

/-- The source puts the five framer errors, codes 0x01 to 0x05, in its one class `StructuralError`; `E_ILLOP` is the spec's own
and in no class of the source (60_exceptions.md rule R160). -/
def BlockError.isStructuralError : BlockError → Bool
  | .oversize _ | .trunc _ | .hcrc _ | .len _ _ | .pcrc _ => true
  | .illop _ => false

end Sys2Proof.Machine
end

