-- ==== Sys2Proof/Machine/Assembler.lean ====
section
/-! DEFINITION. The assembler syntax of 30_encoding.md rule R72 and its one pseudo-operation (rule R73): one line of text
to the request records it stands for, and a response to the text written after `->`. No meaning and no step depends on this
file (92_eei_decisions.md D17). Log entry 10. -/

namespace Sys2Proof.Machine

open Sys2Proof

/-- The lexical elements of a line. -/
inductive Token where
  | word (w : List Char)
  | num (n : Nat)
  | equals | comma | lbrack | rbrack
  deriving DecidableEq, Repr

/-- The value of a digit in base 10 or 16. -/
def digitValue (base : Nat) (c : Char) : Option Nat :=
  let v := if '0' ≤ c ∧ c ≤ '9' then some (c.toNat - 48)
    else if 'a' ≤ c ∧ c ≤ 'f' then some (c.toNat - 87)
    else none
  v.filter (· < base)

/-- The value of a digit string in a base, after the value `acc`. -/
def digitsValue (base : Nat) : Nat → List Char → Option Nat
  | acc, [] => some acc
  | acc, c :: cs =>
    match digitValue base c with
    | some v => digitsValue base (acc * base + v) cs
    | none => none

/-- A numeral: `0x` and hexadecimal digits, or decimal digits (00_scope.md §5). -/
def numeralValue : List Char → Option Nat
  | '0' :: 'x' :: c :: cs => digitsValue 16 0 (c :: cs)
  | c :: cs => digitsValue 10 0 (c :: cs)
  | [] => none

/-- The token a run of word characters makes; none for an empty run. -/
def wordToken : List Char → Option (List Token)
  | [] => some []
  | c :: cs =>
    if '0' ≤ c ∧ c ≤ '9' then (numeralValue (c :: cs)).map fun n => [.num n]
    else some [.word (c :: cs)]

/-- The token of a separating character; none for a blank. -/
def separatorToken (c : Char) : Option (List Token) :=
  if c = ' ' then some []
  else if c = '=' then some [.equals]
  else if c = ',' then some [.comma]
  else if c = '[' then some [.lbrack]
  else if c = ']' then some [.rbrack]
  else none

/-- A character of a mnemonic, a keyword or a numeral. -/
def isWordChar (c : Char) : Bool := ('a' ≤ c && c ≤ 'z') || ('0' ≤ c && c ≤ '9') || c == '.'

/-- The tokens of a line in lower case, after the word characters `acc`. -/
def lexFrom : List Char → List Char → Option (List Token)
  | acc, [] => wordToken acc
  | acc, c :: cs =>
    if isWordChar c then lexFrom (acc ++ [c]) cs
    else
      match wordToken acc, separatorToken c, lexFrom [] cs with
      | some t, some p, some rest => some (t ++ p ++ rest)
      | _, _, _ => none

/-- The tokens of a line; upper case and lower case are the same (30_encoding.md rule R72). -/
def lexLine (line : List Char) : Option (List Token) := lexFrom [] (line.map Char.toLower)

/-- The mnemonic of an operation, in the lower case of rule R72's table of forms. -/
def Op.mnemonic : Op → List Char
  | .crcClr => ['c', 'r', 'c', '.', 'c', 'l', 'r']
  | .crcFeed => ['c', 'r', 'c', '.', 'f', 'e', 'e', 'd']
  | .crcRead => ['c', 'r', 'c', '.', 'r', 'e', 'a', 'd']
  | .crcCalc => ['c', 'r', 'c', '.', 'c', 'a', 'l', 'c']
  | .frmPack => ['f', 'r', 'm', '.', 'p', 'a', 'c', 'k']
  | .frmUnpack => ['f', 'r', 'm', '.', 'u', 'n', 'p', 'a', 'c', 'k']

/-- The pseudo-operation's name (30_encoding.md rule R73). -/
def feednWord : List Char := ['c', 'r', 'c', '.', 'f', 'e', 'e', 'd', 'n']

/-- The keywords of `frm.pack` (30_encoding.md rule R72). -/
def sernoWord : List Char := ['s', 'e', 'r', 'n', 'o']

/-- The keywords of `frm.pack` (30_encoding.md rule R72). -/
def cmdWord : List Char := ['c', 'm', 'd']

/-- The keywords of `frm.pack` (30_encoding.md rule R72). -/
def payloadWord : List Char := ['p', 'a', 'y', 'l', 'o', 'a', 'd']

/-- The absent payload (30_encoding.md rule R72). -/
def noneWord : List Char := ['n', 'o', 'n', 'e']

/-- The numbers of a sequence after its opening bracket, up to the closing bracket that ends the line. -/
def parseItems : List Token → Option (List Nat)
  | [.num n, .rbrack] => some [n]
  | .num n :: .comma :: rest => (parseItems rest).map (n :: ·)
  | _ => none

/-- A sequence `[b0, b1, ...]` that ends the line, the form of 30_encoding.md rule R72. The hex dumps of 95_test_vectors.md are
brought into this form by `fromDump`. DESIGN CHOICE, log entry 10. -/
def parseSeq : List Token → Option (List Nat)
  | [.lbrack, .rbrack] => some []
  | .lbrack :: rest => parseItems rest
  | _ => none

/-- A payload that ends the line: `none` or a sequence. -/
def parsePayload (ts : List Token) : Option (Option (List Nat)) :=
  if ts = [.word noneWord] then some none else (parseSeq ts).map some

/-- The operands of `frm.pack`. -/
def parsePacket : List Token → Option Operands
  | .word s :: .equals :: .num serno :: .comma :: .word c :: .equals :: .num cmd :: .comma :: .word p :: .equals :: payload =>
    if s = sernoWord ∧ c = cmdWord ∧ p = payloadWord then
      (parsePayload payload).map fun payload => .packet serno cmd payload
    else none
  | _ => none

/-- The request of an operation with the given operands. -/
def requestOf (op : Op) (operands : Operands) : Request := { op := op.code.toNat, operands := operands }

/-- The operand of `crc.feed`. -/
def parseByte : List Token → Option Operands
  | [.num b] => some (.byte b)
  | _ => none

/-- The absence of operands. -/
def parseNothing : List Token → Option Operands
  | [] => some .noOperands
  | _ => none

/-- The requests of one line: one for an operation (30_encoding.md rule R72), one for each byte for the pseudo-operation
`crc.feedn` (rule R73). -/
def parseLine : List Token → Option (List Request)
  | .word m :: rest =>
    if m = Op.mnemonic .crcClr then (parseNothing rest).map fun o => [requestOf .crcClr o]
    else if m = Op.mnemonic .crcFeed then (parseByte rest).map fun o => [requestOf .crcFeed o]
    else if m = Op.mnemonic .crcRead then (parseNothing rest).map fun o => [requestOf .crcRead o]
    else if m = Op.mnemonic .crcCalc then (parseSeq rest).map fun d => [requestOf .crcCalc (.data d)]
    else if m = Op.mnemonic .frmPack then (parsePacket rest).map fun o => [requestOf .frmPack o]
    else if m = Op.mnemonic .frmUnpack then (parseSeq rest).map fun b => [requestOf .frmUnpack (.buffer b)]
    else if m = feednWord then (parseSeq rest).map fun d => d.map fun b => requestOf .crcFeed (.byte b)
    else none
  | _ => none

/-- The items of a hex dump after its opening bracket, two hexadecimal digits each and set apart by blanks, written as rule R72
writes a sequence. -/
def dumpItems : Bool → List Char → Option (List Char)
  | first, ' ' :: cs => dumpItems first cs
  | _, ']' :: cs => some (']' :: cs)
  | first, a :: b :: cs =>
    if (digitValue 16 a).isSome && (digitValue 16 b).isSome && (cs.head? == some ' ' || cs.head? == some ']') then
      (dumpItems false cs).map fun rest => (if first then [] else [',']) ++ '0' :: 'x' :: a :: b :: rest
    else none
  | _, _ => none

/-- A line in lower case whose sequence is a hex dump such as `[fd 02 00]` (00_scope.md §5), written as rule R72 writes it. DESIGN
CHOICE, log entry 10. -/
def fromDump : List Char → Option (List Char)
  | [] => none
  | '[' :: cs => (dumpItems true cs).map ('[' :: ·)
  | c :: cs => (fromDump cs).map (c :: ·)

/-- The requests one line of assembly text stands for: in the form of 30_encoding.md rule R72, or else with its sequence as a hex
dump, as the programs of 95_test_vectors.md write it. DESIGN CHOICE, log entry 10: a line that can be read in both ways has
the meaning of rule R72. -/
def assemble (line : String) : Option (List Request) :=
  ((lexLine line.toList).bind parseLine).or
    (((fromDump (line.toList.map Char.toLower)).bind lexLine).bind parseLine)

/-- The numbers of a sequence after its opening bracket, as tokens. -/
def itemTokens : List Nat → List Token
  | [] => [.rbrack]
  | [n] => [.num n, .rbrack]
  | n :: ns => .num n :: .comma :: itemTokens ns

/-- A byte sequence as tokens. -/
def seqTokens (s : Bytes) : List Token := .lbrack :: itemTokens (ofBytes s)

/-- The tokens in which rule R72 writes an instruction. -/
def lineTokens : Instr → List Token
  | .crcClr => [.word (Op.mnemonic .crcClr)]
  | .crcFeed b => [.word (Op.mnemonic .crcFeed), .num b.toNat]
  | .crcRead => [.word (Op.mnemonic .crcRead)]
  | .crcCalc d => .word (Op.mnemonic .crcCalc) :: seqTokens d
  | .frmPack serno cmd payload =>
    [.word (Op.mnemonic .frmPack), .word sernoWord, .equals, .num serno.toNat, .comma,
      .word cmdWord, .equals, .num cmd.toNat, .comma, .word payloadWord, .equals] ++
    (match payload with
      | none => [.word noneWord]
      | some p => seqTokens p)
  | .frmUnpack b => .word (Op.mnemonic .frmUnpack) :: seqTokens b

/-- One hexadecimal digit in upper case. -/
def hexDigit (n : Nat) : Char := if n < 10 then Char.ofNat (48 + n) else Char.ofNat (55 + n)

/-- A byte as two hexadecimal digits. -/
def hexByte (b : Byte) : String := String.ofList [hexDigit (b.toNat / 16), hexDigit (b.toNat % 16)]

/-- A sequence as the hex dumps of 00_scope.md §5 write it, in brackets. -/
def hexDump (s : Bytes) : String := "[" ++ " ".intercalate (s.map hexByte) ++ "]"

/-- The name of an error status, and its `info` (60_exceptions.md rule R160), as 95_test_vectors.md writes them. -/
def BlockError.render : BlockError → String
  | .oversize n => "E_OVERSIZE, info " ++ Nat.repr n
  | .trunc n => "E_TRUNC, info " ++ Nat.repr n
  | .hcrc b => "E_HCRC, info 0x" ++ hexByte b
  | .len l n => "E_LEN, info L=" ++ Nat.repr l.toNat ++ ", len=" ++ Nat.repr n
  | .pcrc b => "E_PCRC, info 0x" ++ hexByte b
  | .illop op => "E_ILLOP, info 0x" ++ hexByte op

/-- The result fields of an operation that completed, each after a blank (30_encoding.md rule R72). -/
def Results.render : Results → String
  | .noResults => ""
  | .crc c => " crc=0x" ++ hexByte c
  | .frame f => " frame=" ++ hexDump f
  | .unpacked u =>
    " state=0x" ++ hexByte u.state ++ " command=0x" ++ hexByte u.command ++ " length=" ++ Nat.repr u.length.toNat ++
      " serno=" ++ Nat.repr u.serno.toNat ++ " payload=" ++ (u.payload.elim "none" hexDump)

/-- A response as written after `->`: the status, then the result fields (30_encoding.md rule R72). -/
def Response.render : Response → String
  | .ok r => "OK" ++ r.render
  | .error e => e.render

end Sys2Proof.Machine
end

