-- ==== Sys2Proof/Safety.lean ====
section
/-! DEFINITION. What a safe run is: which requests the interface takes, what a response may look like, the invariant that
every step keeps, and the host's own duties (10_state.md rule R33 to rule R38). -/

namespace Sys2Proof.Machine

open Sys2Proof

/-- The record's input sequence is within the configured `MAX_IN` (20_memory.md rule R53). -/
def inputFits (c : BlockConfig) (r : Request) : Bool :=
  match c.maxIn with
  | none => true
  | some bound => r.operands.inputLength ≤ bound

/-- The interface takes the record: its code is 8 bits wide, and it is either an illegal code, which the block answers with
`E_ILLOP` (30_encoding.md rule R71), or one of the six operations with operands in their widths and within the bound. -/
def admissible (c : BlockConfig) (r : Request) : Bool :=
  fitsByte r.op && (!legalOp r.op || (r.wf && inputFits c r))

/-- A run whose every request the interface takes. -/
def Safe (s : State) : Prop := ∀ r ∈ s.script, admissible s.cfg r = true

/-- A sequence of bytes with the sizes and the marker of a request frame (00_scope.md rule R10, 41_framer.md rule R124). -/
def frameShape (k : Fin 3) (f : Bytes) : Bool :=
  (f.length == 7 || (9 ≤ f.length && f.length ≤ 258)) && byteAt f 0 == reqMarker &&
    expectedLen k (byteAt f 2) == some f.length

/-- An unpacked record as 10_state.md rule R30 and 41_framer.md rule R136 bound it: no payload exactly when the length byte is 0,
and otherwise 1 to 250 payload bytes that the length byte counts. -/
def recordShape (k : Fin 3) (u : Unpacked) : Bool :=
  match u.payload with
  | none => u.length == 0
  | some p => 1 ≤ p.length && p.length ≤ 250 && u.length.toNat == p.length + k.val

/-- A response the spec allows: results of the shape rule R30 gives, or an error whose `info` shows its cause
(60_exceptions.md rule R160). -/
def Response.legal (k : Fin 3) : Response → Bool
  | .ok .noResults => true
  | .ok (.crc _) => true
  | .ok (.frame f) => frameShape k f
  | .ok (.unpacked u) => recordShape k u
  | .error (.oversize n) => 250 < n
  | .error (.trunc n) => n < 7
  | .error (.hcrc _) => true
  | .error (.len l n) => 7 ≤ n && expectedLen k l != some n
  | .error (.pcrc _) => true
  | .error (.illop op) => !legalOp op.toNat

/-- The invariant: the configuration is one the spec allows (20_memory.md rule R53), and every response ever returned is one the
spec allows. -/
def Inv (s : State) : Prop := s.cfg.wf = true ∧ ∀ r ∈ s.responses, Response.legal s.cfg.kLen r = true

/-- What the host reads from the Transport: nothing within the bound, or bytes (10_state.md rule R35). -/
inductive ReadOutcome where
  | timeout
  | bytes (buf : Bytes)
  deriving DecidableEq, Repr

/-- The host's duty of rule R35: an empty read is a timeout, never a buffer for `FRM.UNPACK`. -/
def classifyRead (buf : Bytes) : ReadOutcome := if buf = [] then .timeout else .bytes buf

/-- The host's duties about one request: no empty read (10_state.md rule R35) and no short or range acknowledge byte
(70_reset_and_hazards.md rule R195) goes to `FRM.UNPACK`. -/
def dutiful : Instr → Bool
  | .frmUnpack buf => 1 < buf.length
  | .crcClr | .crcFeed _ | .crcRead | .crcCalc _ | .frmPack _ _ _ => true

/-- The buffers a list of operations gives to `FRM.UNPACK`, in order. -/
def unpackBuffers : List Instr → List Bytes
  | [] => []
  | .frmUnpack buf :: is => buf :: unpackBuffers is
  | .crcClr :: is | .crcFeed _ :: is | .crcRead :: is | .crcCalc _ :: is | .frmPack _ _ _ :: is => unpackBuffers is

/-- The host's duty of 70_reset_and_hazards.md rule R196: each reply, whole and with nothing else, is the buffer of one
`FRM.UNPACK`, in the order the replies came. -/
def passesWholeReplies (replies : List Bytes) (is : List Instr) : Bool := unpackBuffers is == replies

/-- The host's echo check on an unpacked reply, outside the block (10_state.md rule R37). Each expectation is optional: the
source asks for the serial number "and/or" the command code. Log entry 11. -/
def echoMatches (serno : Option Serno) (command : Option Byte) (u : Unpacked) : Bool :=
  serno.all (u.serno == ·) && command.all (u.command == ·)

end Sys2Proof.Machine
end

