-- ==== Sys2Proof/Certificates/Slice0/Obligations.lean ====
section
/-! DEFINITION. The statements for the provers, each a `def Obligations.<Name> : Prop`. The helpers under `Sys2Proof.Spec` say the
spec's own words again, apart from the model's definitions, so that a statement holds the model against the spec and not
against itself. -/

open Sys2Proof Sys2Proof.Machine

namespace Sys2Proof.Spec

/-- The serial number's bytes `[7:0]`, `[15:8]`, `[23:16]` (30_encoding.md rule R62). -/
def sernoField (v : Serno) : Bytes :=
  [BitVec.ofNat 8 (v.toNat % 256), BitVec.ofNat 8 (v.toNat / 256 % 256), BitVec.ofNat 8 (v.toNat / 65536)]

/-- The value of the length byte of a frame with `n` payload bytes (30_encoding.md rule R63). -/
def lengthValue (k n : Nat) : Nat := if n = 0 then 0 else n + k

/-- The header of a frame whose byte 0 is `state`, with `n` payload bytes (30_encoding.md rule R61). -/
def headerOf (k : Fin 3) (state cmd : Byte) (serno : Serno) (n : Nat) : Bytes :=
  [state, cmd, BitVec.ofNat 8 (lengthValue k.val n)] ++ sernoField serno

/-- The frame of rule R60: header and its checksum, and for a payload that is not empty the payload and the checksum of
everything before it (30_encoding.md rule R60, rule R64). -/
def frameOf (k : Fin 3) (state cmd : Byte) (serno : Serno) (p : Bytes) : Bytes :=
  let h := headerOf k state cmd serno p.length
  match p with
  | [] => h ++ [crc8 h]
  | _ :: _ => (h ++ [crc8 h] ++ p) ++ [crc8 (h ++ [crc8 h] ++ p)]

/-- The record of a frame: the payload is absent exactly when it is empty (41_framer.md rule R135, rule R136). -/
def recordOf (k : Fin 3) (state cmd : Byte) (serno : Serno) (p : Bytes) : Unpacked :=
  { state := state, command := cmd, length := BitVec.ofNat 8 (lengthValue k.val p.length), serno := serno,
    payload := if p = [] then none else some p }

/-- `s` with one more response and nothing else changed (10_state.md rule R30). -/
def answered (s : State) (r : Response) : State :=
  { cfg := s.cfg, acc := s.acc, script := s.script, responses := s.responses ++ [r] }

/-- The bytes the `CRC.FEED` operations of a list feed, in order. -/
def fedBytes : List Instr → Bytes
  | [] => []
  | .crcFeed b :: is => b :: fedBytes is
  | .crcClr :: is | .crcRead :: is | .crcCalc _ :: is | .frmPack _ _ _ :: is | .frmUnpack _ :: is => fedBytes is

/-- The bits of a sequence in the order the engine consumes them: byte 0 first, bit 0 of each byte first (20_memory.md
rule R42). -/
def messageBits (s : Bytes) : List Bool := s.flatMap fun b => (List.range 8).map fun j => b.getLsbD j

/-- The message as a polynomial over GF(2): the first bit consumed has the highest power. -/
noncomputable def messagePoly (s : Bytes) : Polynomial (ZMod 2) :=
  (messageBits s).foldl (fun p bit => p * Polynomial.X + (if bit then 1 else 0)) 0

/-- `CRC_POLY`, x⁸+x⁵+x⁴+1 (00_scope.md rule R9). -/
noncomputable def generator : Polynomial (ZMod 2) :=
  Polynomial.X ^ 8 + Polynomial.X ^ 5 + Polynomial.X ^ 4 + 1

/-- A checksum byte as a polynomial, in the reflected form: bit `j` is the coefficient of x^(7-j) (00_scope.md rule R9). -/
noncomputable def checksumPoly (c : Byte) : Polynomial (ZMod 2) :=
  ((List.range 8).map fun j => if c.getLsbD j then Polynomial.X ^ (7 - j) else 0).sum

end Sys2Proof.Spec

open Sys2Proof.Spec

/-! ### Reset, steps and runs -/

/-- 70_reset_and_hazards.md §1 (rule R190) for every configuration: `ACC` is 0x00, the configuration is as built, nothing has been
issued or answered, and the block idles. That the host's two lists are empty, and that an idle step changes nothing, is the
model's reading (log entries 3 and 4). -/
def Obligations.ResetClearsAccumulatorAndIdles : Prop :=
  (∀ cfg : BlockConfig,
    (State.resetWith cfg).acc = 0x00 ∧ (State.resetWith cfg).cfg = cfg ∧ (State.resetWith cfg).script = [] ∧
    (State.resetWith cfg).responses = [] ∧ step (State.resetWith cfg) = .next (State.resetWith cfg)) ∧
  State.reset = State.resetWith { kLen := Config.builtKLen, maxIn := none }

/-- The invariant `Inv` holds at reset, for every configuration the spec allows. -/
def Obligations.InvariantHoldsAtReset : Prop :=
  (∀ cfg : BlockConfig, cfg.wf = true → Inv (State.resetWith cfg)) ∧ Inv State.reset

/-- Every step keeps `Inv`: the configuration stays one the spec allows, and every response ever returned is one the spec
allows (frame sizes and marker, payload bounds, error infos; rules R10, R30, R124, R136, R160). -/
def Obligations.StepKeepsInvariant : Prop :=
  ∀ s t : State, Inv s → step s = .next t → Inv t

/-- A step runs the decoded instruction: the next request, taken off the script, is performed by `exec`; with no request left the
block is idle (rules R33, R175; log entries 3 and 4). -/
def Obligations.StepRunsTheDecodedInstruction : Prop :=
  (∀ (s : State) (r : Request) (rest : List Request) (i : Instr),
    s.script = r :: rest → decode r = .ok i → withinBound s.cfg i = true →
    step s = exec i { s with script := rest }) ∧
  (∀ s : State, s.script = [] → step s = .next s)

/-- The very next step after `withFetchWord` runs the table word's instruction, with the rest of the script as it was (log
entry 8). -/
def Obligations.FetchWordRunsTheTableInstruction : Prop :=
  ∀ (s : State) (w : Nat) (i : Instr), decodeTableWord 8 w = some i →
    step (s.withFetchWord 8 w) = exec i { s with script := s.script.tail }

/-- What every step leaves and does at most (rules R24, R33): the configuration never changes, at most one request is taken, and
exactly one response is appended for it; with no request nothing changes. That a step takes the request off a list in the state, and
that an idle step answers the state before it, is the model's choice (log entries 3 and 4). -/
def Obligations.StepTakesOneRequestAndReturnsOneResponse : Prop :=
  ∀ s t : State, step s = .next t →
    t.cfg = s.cfg ∧ t.script = s.script.tail ∧
    (s.script = [] → t = s) ∧ (s.script ≠ [] → ∃ r, t.responses = s.responses ++ [r])

/-- The interface takes exactly the admissible requests (rules R29, R53, R71, R165): a step answers a next state exactly when there
is nothing to do or the next request is admissible; in every other case it refuses. That a record of another shape, or a code
wider than 8 bits, is refused is the model's choice (log entries 5 and 6), so is that requests stand on a list in the state and
that a step with none of them answers a next state (log entries 3 and 4), and that an illegal code is answered with `E_ILLOP`
whatever its operands are is deduced (log entry 7). -/
def Obligations.StepAnswersExactlyAdmissibleRequests : Prop :=
  ∀ s : State,
    ((∃ t, step s = .next t) ↔
      (s.script = [] ∨ ∃ r rest, s.script = r :: rest ∧ admissible s.cfg r = true)) ∧
    ((∃ q, step s = .refused q) ↔
      ∃ r rest, s.script = r :: rest ∧ admissible s.cfg r = false) ∧
    (∀ r rest, s.script = r :: rest → r.op < 256 → legalOp r.op = false →
      step s = .next (answered { s with script := rest } (.error (.illop (BitVec.ofNat 8 r.op)))))

/-- 60_exceptions.md §1, 10_state.md §4 (rules R29, R165): a value wider than its field is refused by name and never truncated, and so
is an input longer than `MAX_IN` (rule R53). The wide value may be the serial number, the command, the fed byte, or any byte of
`data`, `payload` or `buf`. That the first of several wide values is the one named, and that a code wider than 8 bits is refused
under a name of its own, is the model's choice (log entry 5). -/
def Obligations.WideOrLongOperandsAreRefused : Prop :=
  (∀ (s : State) (serno cmd : Nat) (payload : Option (List Nat)) (rest : List Request),
    s.script = { op := 0x20, operands := .packet serno cmd payload } :: rest → 16777215 < serno →
    step s = .refused (.wideSerno serno)) ∧
  (∀ (s : State) (serno cmd : Nat) (payload : Option (List Nat)) (rest : List Request),
    s.script = { op := 0x20, operands := .packet serno cmd payload } :: rest → serno ≤ 16777215 → 255 < cmd →
    step s = .refused (.wideByte cmd)) ∧
  (∀ (s : State) (b : Nat) (rest : List Request),
    s.script = { op := 0x11, operands := .byte b } :: rest → 255 < b → step s = .refused (.wideByte b)) ∧
  (∀ (s : State) (before : Bytes) (n : Nat) (after : List Nat) (rest : List Request), 255 < n →
    (s.script = { op := 0x13, operands := .data (before.map BitVec.toNat ++ n :: after) } :: rest ∨
      s.script = { op := 0x21, operands := .buffer (before.map BitVec.toNat ++ n :: after) } :: rest ∨
      ∃ serno cmd : Nat, serno ≤ 16777215 ∧ cmd ≤ 255 ∧
        s.script = { op := 0x20, operands := .packet serno cmd (some (before.map BitVec.toNat ++ n :: after)) } :: rest) →
    step s = .refused (.wideByte n)) ∧
  (∀ (s : State) (op : Nat) (operands : Operands) (rest : List Request),
    s.script = { op := op, operands := operands } :: rest → 255 < op → step s = .refused (.wideOp op)) ∧
  (∀ (s : State) (i : Instr) (bound : Nat) (rest : List Request),
    s.script = encode i :: rest → s.cfg.maxIn = some bound → bound < inputLength i →
    step s = .refused (.inputTooLong (inputLength i) bound))

/-- 70_reset_and_hazards.md §1 (rule R192), 10_state.md §5 (rule R33): a run whose every request is admissible ends, with one response
for each request, in order, and the configuration as built. Admissible takes in an illegal code with any operands, which is
deduced (log entry 7), and a run is the model's list of requests in the state (log entry 3). -/
def Obligations.SafeRunAnswersEveryRequest : Prop :=
  ∀ s : State, Safe s →
    ∃ t : State, Host.Core.run Sys2Proof.core s.script.length s = .next t ∧ t.script = [] ∧ t.cfg = s.cfg ∧
      ∃ rs : List Response, rs.length = s.script.length ∧ t.responses = s.responses ++ rs

/-! ### Encoding of requests -/

/-- Decoding the record of any instruction gives it back, with every operand at every value. -/
def Obligations.DecodeOfEncodeIsTheInstruction : Prop :=
  ∀ i : Instr, decode (encode i) = .ok i

/-- Every record has one meaning: a record that decodes is the record of what it decodes to. -/
def Obligations.EncodeOfDecodeIsTheRequest : Prop :=
  ∀ (r : Request) (i : Instr), decode r = .ok i → encode i = r

/-- The decoder takes exactly the well-formed records of rule R29. -/
def Obligations.DecodesExactlyWellFormedRequests : Prop :=
  ∀ r : Request, (∃ i, decode r = .ok i) ↔ r.wf = true

/-- Rule R70: the six codes, each with its operands, for every value of the operands; and no other code names an operation. -/
def Obligations.OperationCodesNameTheirOperations : Prop :=
  decode { op := 0x10, operands := .noOperands } = .ok .crcClr ∧
  (∀ b : Byte, decode { op := 0x11, operands := .byte b.toNat } = .ok (.crcFeed b)) ∧
  decode { op := 0x12, operands := .noOperands } = .ok .crcRead ∧
  (∀ d : Bytes, decode { op := 0x13, operands := .data (d.map BitVec.toNat) } = .ok (.crcCalc d)) ∧
  (∀ (v : Serno) (c : Byte), decode { op := 0x20, operands := .packet v.toNat c.toNat none } = .ok (.frmPack v c none)) ∧
  (∀ (v : Serno) (c : Byte) (p : Bytes),
    decode { op := 0x20, operands := .packet v.toNat c.toNat (some (p.map BitVec.toNat)) } = .ok (.frmPack v c (some p))) ∧
  (∀ b : Bytes, decode { op := 0x21, operands := .buffer (b.map BitVec.toNat) } = .ok (.frmUnpack b)) ∧
  (∀ (r : Request) (i : Instr), decode r = .ok i → r.op ∈ [0x10, 0x11, 0x12, 0x13, 0x20, 0x21])

/-- Sanity: the table words of rule R70 written out decode to their instructions, and neighbouring words decode to none. -/
def Obligations.TableWordsDecode : Prop :=
  decodeTableWord 8 0b00010000 = some .crcClr ∧ decodeTableWord 8 0b00010001 = some (.crcFeed 0x00) ∧
  decodeTableWord 8 0b00010010 = some .crcRead ∧ decodeTableWord 8 0b00010011 = some (.crcCalc []) ∧
  decodeTableWord 8 0b00100000 = some (.frmPack 0x000000 0x00 none) ∧
  decodeTableWord 8 0b00100001 = some (.frmUnpack []) ∧
  decodeTableWord 8 0b00010100 = none ∧ decodeTableWord 8 0b00100010 = none

/-- Rule R71: every other code answers `E_ILLOP` with the code as its info, and has no other effect. The operands of such a request
are within the interface here; `StepAnswersExactlyAdmissibleRequests` says the rest. -/
def Obligations.IllegalCodesAnswerIllop : Prop :=
  ∀ (s : State) (op : Nat) (operands : Operands) (rest : List Request),
    (op ≤ 0x0F ∨ (0x14 ≤ op ∧ op ≤ 0x1F) ∨ (0x22 ≤ op ∧ op ≤ 0xFF)) →
    operands.widthsFit = true → inputFits s.cfg { op := op, operands := operands } = true →
    s.script = { op := op, operands := operands } :: rest →
    step s = .next { cfg := s.cfg, acc := s.acc, script := rest,
                     responses := s.responses ++ [.error (.illop (BitVec.ofNat 8 op))] } ∧
    (BlockError.illop (BitVec.ofNat 8 op)).code = 0xFF

/-! ### The CRC-8 engine -/

/-- Rule R104: `CRC.CLR`, op 0x10, sets `ACC` to 0x00 whatever it held and returns `OK`; two in a row act like one. -/
def Obligations.ClrSetsAccumulatorToSeed : Prop :=
  (∀ s : State,
    exec .crcClr s = .next { cfg := s.cfg, acc := 0x00, script := s.script,
                             responses := s.responses ++ [.ok .noResults] } ∧
    (∀ t, exec .crcClr s = .next t → exec .crcClr t = .next (answered t (.ok .noResults)))) ∧
  (Response.ok .noResults).statusCode = 0x00 ∧ encode .crcClr = { op := 0x10, operands := .noOperands }

/-- Rule R105: `CRC.FEED b`, op 0x11, sets `ACC` to `crc8_step(ACC, b)` and returns `OK`, with the rule's corner cases and example;
here `crc8_step` is read off the spec's printed table `T` (40_crc8.md rule R102). -/
def Obligations.FeedAdvancesAccumulatorByOneByte : Prop :=
  (∀ (s : State) (b : Byte),
    exec (.crcFeed b) s = .next { cfg := s.cfg, acc := crcTableAt (s.acc ^^^ b), script := s.script,
                                  responses := s.responses ++ [.ok .noResults] }) ∧
  (∀ c b : Byte, crc8Step c b = crcTableAt (c ^^^ b) ∧ crc8Step c b = crc8Step b c ∧ crc8Step c c = 0x00) ∧
  crc8Step 0x00 0x00 = 0x00 ∧ crc8Step 0x00 0xFD = 0x89 ∧
  (∃ c x y : Byte, crc8Step (crc8Step c x) y ≠ crc8Step (crc8Step c y) x) ∧
  (∀ b : Byte, encode (.crcFeed b) = { op := 0x11, operands := .byte b.toNat })

/-- Rule R106: `CRC.READ`, op 0x12, returns `ACC` and changes nothing; directly after reset it returns 0x00, and two reads in a row
return the same value; after `CRC.CLR` and the rule's six feeds it returns 0x2D. -/
def Obligations.ReadReturnsAccumulator : Prop :=
  (∀ s : State,
    exec .crcRead s = .next (answered s (.ok (.crc s.acc))) ∧
    (∀ t, exec .crcRead s = .next t → exec .crcRead t = .next (answered t (.ok (.crc s.acc))))) ∧
  (∀ cfg, exec .crcRead (State.resetWith cfg) = .next (answered (State.resetWith cfg) (.ok (.crc 0x00)))) ∧
  (∀ s : State, s.acc = [0xFD, 0x02, 0x00, 0xBB, 0x81, 0x00].foldl crc8Step 0x00 →
    exec .crcRead s = .next (answered s (.ok (.crc 0x2D)))) ∧
  encode .crcRead = { op := 0x12, operands := .noOperands }

/-- Rule R103: `CRC.CALC data`, op 0x13, returns `crc8(data)` and neither reads nor writes `ACC`; the checksum of the empty sequence
and of any number of zero bytes is 0x00. -/
def Obligations.CalcReturnsChecksumOfData : Prop :=
  (∀ (s : State) (d : Bytes), exec (.crcCalc d) s = .next (answered s (.ok (.crc (crc8 d))))) ∧
  (∀ n : Nat, crc8 (List.replicate n 0x00) = 0x00) ∧
  crc8 [0xFD, 0x02, 0x00, 0xBB, 0x81, 0x00] = 0x2D ∧
  (∀ d : Bytes, encode (.crcCalc d) = { op := 0x13, operands := .data (d.map BitVec.toNat) })

/-- 40_crc8.md §1, the table form (the spec marks it derived): `crc8_step(c, b) = T[c XOR b]` on all inputs, and `T` is a permutation
of the 256 byte values. -/
def Obligations.TableFormAgreesWithTheRounds : Prop :=
  (∀ c b : Byte, crc8Step c b = crcTableAt (c ^^^ b)) ∧ crcTable.length = 256 ∧ ∀ v : Byte, ∃ i : Byte, crcTableAt i = v

/-- 40_crc8.md §3, zero residue (the spec marks it derived): appending the checksum brings the register back to 0x00, so a frame
without payload leaves 0x00. -/
def Obligations.ChecksumOfSequenceWithItsChecksumIsZero : Prop :=
  (∀ s : Bytes, crc8 (s ++ [crc8 s]) = 0x00) ∧
  (∀ (k : Fin 3) (state cmd : Byte) (serno : Serno), crc8 (frameOf k state cmd serno []) = 0x00)

/-- 40_crc8.md §3, leading zero bytes are invisible (the spec marks it derived). -/
def Obligations.LeadingZeroBytesAreInvisible : Prop :=
  ∀ (n : Nat) (s : Bytes), crc8 (List.replicate n 0x00 ++ s) = crc8 s

/-- 40_crc8.md §3, linearity of the function and of the table (the spec marks it derived). -/
def Obligations.ChecksumIsLinear : Prop :=
  (∀ a b : Bytes, a.length = b.length → crc8 (List.zipWith (· ^^^ ·) a b) = crc8 a ^^^ crc8 b) ∧
  (∀ x y : Byte, crcTableAt (x ^^^ y) = crcTableAt x ^^^ crcTableAt y)

/-- 40_crc8.md §3, single-bit errors (the spec marks it derived, and claims it of 1 to 258 bytes): inverting any one bit of a sequence
of any length changes its checksum. -/
def Obligations.SingleBitErrorsChangeTheChecksum : Prop :=
  ∀ (s : Bytes) (j : Nat), j < 8 * s.length → crc8 (flipBit s j) ≠ crc8 s

/-- 40_crc8.md §3, order sensitivity with the spec's exact exception (the spec marks it derived): two bytes commute exactly when they
are equal or differ by 0xF7. -/
def Obligations.BytesCommuteExactlyAtTheFixedPoint : Prop :=
  ∀ x y : Byte, crc8 [x, y] = crc8 [y, x] ↔ (x = y ∨ x ^^^ y = 0xF7)

/-- 00_scope.md §4 and 40_crc8.md §1 (rules R9, R101): the engine computes the CRC of the polynomial x⁸+x⁵+x⁴+1 with seed 0x00: the
checksum is the remainder of the message times x⁸, over GF(2). -/
def Obligations.ChecksumIsThePolynomialRemainder : Prop :=
  ∀ s : Bytes, (messagePoly s * Polynomial.X ^ 8) %ₘ generator = checksumPoly (crc8 s)

/-- 40_crc8.md §2, the accumulator and the pure function agree (the spec marks it derived): after `CRC.CLR`, any operations but
`CRC.CLR`, and `CRC.READ`, the last response is the checksum of exactly the bytes fed, whatever came between the feeds. -/
def Obligations.AccumulatorAgreesWithPureFunction : Prop :=
  ∀ (s : State) (is : List Instr),
    (∀ i ∈ is, i ≠ .crcClr ∧ withinBound s.cfg i = true) →
    s.script = encode .crcClr :: (is.map encode ++ [encode .crcRead]) →
    ∃ t : State, Host.Core.run Sys2Proof.core s.script.length s = .next t ∧
      t.acc = crc8 (fedBytes is) ∧ t.responses.getLast? = some (.ok (.crc (crc8 (fedBytes is))))

/-! ### Building frames -/

/-- Rule R120: `FRM.PACK`, op 0x20, on every operand: the frame of the layout with marker 0xFD, or `E_OVERSIZE`; nothing else
changes. With the rule's example, the same for every `K_LEN`. -/
def Obligations.PackBuildsTheRequestFrame : Prop :=
  (∀ (s : State) (serno : Serno) (cmd : Byte) (payload : Option Bytes),
    ((payload.getD []).length ≤ 250 →
      exec (.frmPack serno cmd payload) s =
        .next (answered s (.ok (.frame (frameOf s.cfg.kLen 0xFD cmd serno (payload.getD [])))))) ∧
    (250 < (payload.getD []).length →
      exec (.frmPack serno cmd payload) s =
        .next (answered s (.error (.oversize (payload.getD []).length))))) ∧
  (∀ (serno : Serno) (cmd : Byte) (payload : Option Bytes),
    encode (.frmPack serno cmd payload) =
      { op := 0x20, operands := .packet serno.toNat cmd.toNat (payload.map fun p => p.map BitVec.toNat) }) ∧
  (∀ k : Fin 3, frameOf k 0xFD 0x02 33211 [] = [0xFD, 0x02, 0x00, 0xBB, 0x81, 0x00, 0x2D])

/-- Rule R122: a payload of more than 250 bytes fails with `E_OVERSIZE`, no frame and no other change. -/
def Obligations.PackRefusesOversizePayload : Prop :=
  ∀ (s : State) (serno : Serno) (cmd : Byte) (p : Bytes), 250 < p.length →
    exec (.frmPack serno cmd (some p)) s = .next (answered s (.error (.oversize p.length))) ∧
    (Response.error (.oversize p.length)).statusCode = 0x01 ∧ (Response.error (.oversize p.length)).results? = none

/-- Rule R123: an empty payload is the absent payload: the same 7-byte frame with `L = 0`. -/
def Obligations.EmptyPayloadIsTheAbsentPayload : Prop :=
  ∀ (s : State) (serno : Serno) (cmd : Byte),
    exec (.frmPack serno cmd (some [])) s = exec (.frmPack serno cmd none) s ∧
    ∃ f : Bytes, exec (.frmPack serno cmd (some [])) s = .next (answered s (.ok (.frame f))) ∧
      f.length = 7 ∧ f[2]? = some 0x00

/-- 41_framer.md §1 and 30_encoding.md §2 (rules R124, R10, R63, R67; the spec marks the sizes derived): the length of a packed frame, its
first byte, its length byte, and that a receiver works out exactly its length. -/
def Obligations.PackedFrameHasTheDeclaredLength : Prop :=
  ∀ (k : Fin 3) (serno : Serno) (cmd : Byte) (payload : Option Bytes) (f : Bytes),
    pack k serno cmd payload = .ok f →
    (payload.getD [] = [] → f.length = 7 ∧ byteAt f 2 = 0x00) ∧
    (payload.getD [] ≠ [] →
      f.length = 8 + (payload.getD []).length ∧ (byteAt f 2).toNat = (payload.getD []).length + k.val) ∧
    f.length ≤ 258 ∧ f[0]? = some 0xFD ∧ expectedLen k (byteAt f 2) = some f.length

/-- 30_encoding.md §1 (rule R65, which the spec marks derived): the payload checksum is the checksum of the payload alone. -/
def Obligations.PayloadChecksumIsThatOfThePayload : Prop :=
  ∀ (k : Fin 3) (serno : Serno) (cmd : Byte) (p f : Bytes),
    p ≠ [] → pack k serno cmd (some p) = .ok f → f.getLast? = some (crc8 p)

/-- Rule R62: the serial number is split and assembled least significant byte first, over all 2^24 values; 0xFFFFFF is
`FF FF FF`. -/
def Obligations.SerialNumberBytesAreLittleEndian : Prop :=
  (∀ v : Serno, sernoBytes v = sernoField v) ∧
  (∀ v : Serno, sernoOfBytes (byteAt (sernoBytes v) 0) (byteAt (sernoBytes v) 1) (byteAt (sernoBytes v) 2) = v) ∧
  (∀ b0 b1 b2 : Byte, sernoBytes (sernoOfBytes b0 b1 b2) = [b0, b1, b2]) ∧
  (∀ b0 b1 b2 : Byte, (sernoOfBytes b0 b1 b2).toNat = b0.toNat + 256 * b1.toNat + 65536 * b2.toNat) ∧
  (∀ (k : Fin 3) (serno : Serno) (cmd : Byte) (payload : Option Bytes) (f : Bytes),
    pack k serno cmd payload = .ok f → slice f 3 6 = sernoField serno) ∧
  sernoBytes 0xFFFFFF = [0xFF, 0xFF, 0xFF]

/-- 30_encoding.md §1 (rule R61) in frame bits: where each field of a packed frame lies, `STATE`, `CMD`, `L`, `SERNO`, `HCRC`, and in
a frame with payload `PAYLOAD` and `PCRC`. -/
def Obligations.FrameBitsFollowTheLayout : Prop :=
  ∀ (k : Fin 3) (serno : Serno) (cmd : Byte) (payload : Option Bytes) (f : Bytes),
    pack k serno cmd payload = .ok f →
    (∀ j, j < 8 → frameBit f j = (0xFD : Byte).getLsbD j ∧ frameBit f (8 + j) = cmd.getLsbD j ∧
      frameBit f (16 + j) = (BitVec.ofNat 8 (lengthValue k.val (payload.getD []).length)).getLsbD j ∧
      frameBit f (48 + j) = (crc8 (f.take 6)).getLsbD j) ∧
    (∀ j, j < 24 → frameBit f (24 + j) = serno.getLsbD j) ∧
    (∀ m j, m < (payload.getD []).length → j < 8 →
      frameBit f (8 * (7 + m) + j) = (byteAt (payload.getD []) m).getLsbD j) ∧
    (payload.getD [] ≠ [] → ∀ j, j < 8 →
      frameBit f (8 * (7 + (payload.getD []).length) + j) =
        (crc8 (f.take (7 + (payload.getD []).length))).getLsbD j)

/-- 20_memory.md §1 (rule R53): `MAX_IN`, where there is one, never shuts out a frame that `FRM.PACK` built. -/
def Obligations.EveryPackedFrameIsWithinTheBound : Prop :=
  ∀ (cfg : BlockConfig) (serno : Serno) (cmd : Byte) (payload : Option Bytes) (f : Bytes),
    cfg.wf = true → pack cfg.kLen serno cmd payload = .ok f → withinBound cfg (.frmUnpack f) = true

/-! ### Taking frames apart -/

/-- Rule R131 (and 10_state.md rule R35 for the empty buffer): fewer than 7 bytes is `E_TRUNC`, with the buffer's length. -/
def Obligations.UnpackOfShortBufferIsTruncated : Prop :=
  ∀ (s : State) (buf : Bytes), buf.length < 7 →
    exec (.frmUnpack buf) s = .next (answered s (.error (.trunc buf.length))) ∧
    (Response.error (.trunc buf.length)).statusCode = 0x02

/-- Rule R132: a header checksum other than the computed one is `E_HCRC`, whatever the length byte and whatever follows; every
single-bit corruption of the header or of its checksum is reported so. -/
def Obligations.UnpackChecksTheHeaderChecksumFirst : Prop :=
  (∀ (s : State) (h : Bytes) (c : Byte) (rest : Bytes), h.length = 6 → c ≠ crc8 h →
    exec (.frmUnpack (h ++ c :: rest)) s = .next (answered s (.error (.hcrc c))) ∧
    (Response.error (.hcrc c)).statusCode = 0x03) ∧
  (∀ (s : State) (h rest : Bytes) (j : Nat), h.length = 6 → j < 56 →
    exec (.frmUnpack (flipBit (h ++ crc8 h :: rest) j)) s =
      .next (answered s (.error (.hcrc (byteAt (flipBit (h ++ crc8 h :: rest) j) 6)))))

/-- Rule R133: after a good header checksum, a length byte without a meaning, or one that disagrees with the buffer's length in either
direction, is `E_LEN`, with both. -/
def Obligations.UnpackRefusesAWrongLength : Prop :=
  ∀ (s : State) (h rest : Bytes) (l : Byte), h.length = 6 → h[2]? = some l →
    ((l.toNat = 0 ∧ rest ≠ []) ∨ (1 ≤ l.toNat ∧ l.toNat ≤ s.cfg.kLen.val) ∨ 250 + s.cfg.kLen.val < l.toNat ∨
      (s.cfg.kLen.val < l.toNat ∧ l.toNat ≤ 250 + s.cfg.kLen.val ∧ rest.length ≠ l.toNat - s.cfg.kLen.val + 1)) →
    exec (.frmUnpack (h ++ crc8 h :: rest)) s = .next (answered s (.error (.len l (7 + rest.length)))) ∧
    (Response.error (.len l (7 + rest.length))).statusCode = 0x04

/-- Rule R134: after a good length, a last byte other than the checksum of everything before it is `E_PCRC`. -/
def Obligations.UnpackChecksThePayloadChecksum : Prop :=
  ∀ (s : State) (h p : Bytes) (l c : Byte), h.length = 6 → h[2]? = some l → 1 ≤ p.length → p.length ≤ 250 →
    l.toNat = p.length + s.cfg.kLen.val → c ≠ crc8 (h ++ crc8 h :: p) →
    exec (.frmUnpack (h ++ crc8 h :: (p ++ [c]))) s = .next (answered s (.error (.pcrc c))) ∧
    (Response.error (.pcrc c)).statusCode = 0x05

/-- Rules R135, R136, R137: every frame, with any byte 0, command and serial number, and 0 to 250 payload bytes, is taken apart into
its five fields, the payload absent exactly when it is empty; nothing else changes. -/
def Obligations.UnpackTakesEveryFrameApart : Prop :=
  ∀ (s : State) (state cmd : Byte) (serno : Serno) (p : Bytes), p.length ≤ 250 →
    exec (.frmUnpack (frameOf s.cfg.kLen state cmd serno p)) s =
      .next (answered s (.ok (.unpacked (recordOf s.cfg.kLen state cmd serno p)))) ∧
    ((recordOf s.cfg.kLen state cmd serno p).payload = none ↔ (recordOf s.cfg.kLen state cmd serno p).length = 0x00)

/-- 41_framer.md §2 (rule R130) as a whole: `FRM.UNPACK` accepts exactly the frames of the layout, and the record it returns is
theirs. -/
def Obligations.UnpackAcceptsExactlyTheFrames : Prop :=
  ∀ (s : State) (buf : Bytes) (u : Unpacked),
    exec (.frmUnpack buf) s = .next (answered s (.ok (.unpacked u))) ↔
    ∃ (state cmd : Byte) (serno : Serno) (p : Bytes), p.length ≤ 250 ∧
      buf = frameOf s.cfg.kLen state cmd serno p ∧ u = recordOf s.cfg.kLen state cmd serno p

/-- 60_exceptions.md §2 (rule R164) and 41_framer.md §2 (rule R130): `FRM.UNPACK` answers on every buffer, with the status of the
first check that fails, and `OK` when none does. -/
def Obligations.UnpackReportsTheFirstFailingCheck : Prop :=
  ∀ (s : State) (buf : Bytes), ∃ r : Response,
    exec (.frmUnpack buf) s = .next (answered s r) ∧
    r.statusCode =
      (if buf.length < 7 then 0x02
       else if buf[6]? ≠ some (crc8 (buf.take 6)) then 0x03
       else if expectedLen s.cfg.kLen (byteAt buf 2) ≠ some buf.length then 0x04
       else if byteAt buf 2 ≠ 0x00 ∧ buf.getLast? ≠ some (crc8 buf.dropLast) then 0x05
       else 0x00)

/-- 41_framer.md §3, round trip (the spec marks it derived): what `FRM.PACK` builds, `FRM.UNPACK` of the same configuration takes apart
into the same serial number, command and payload, "empty equals absent". -/
def Obligations.UnpackOfPackRecoversTheOperands : Prop :=
  ∀ (s : State) (serno : Serno) (cmd : Byte) (payload : Option Bytes), (payload.getD []).length ≤ 250 →
    ∃ f : Bytes, exec (.frmPack serno cmd payload) s = .next (answered s (.ok (.frame f))) ∧
      exec (.frmUnpack f) s =
        .next (answered s (.ok (.unpacked
          { state := 0xFD, command := cmd, length := BitVec.ofNat 8 (lengthValue s.cfg.kLen.val (payload.getD []).length),
            serno := serno, payload := if payload = some [] then none else payload })))

/-- 41_framer.md §3, single-bit errors (the spec marks it derived): any one inverted bit of a packed frame is detected, as `E_HCRC`
in bytes 0 to 6 and as `E_PCRC` after them. -/
def Obligations.SingleBitErrorsInFramesAreDetected : Prop :=
  ∀ (s : State) (serno : Serno) (cmd : Byte) (payload : Option Bytes) (f : Bytes) (j : Nat),
    pack s.cfg.kLen serno cmd payload = .ok f → j < 8 * f.length →
    exec (.frmUnpack (flipBit f j)) s =
      .next (answered s (.error
        (if j < 56 then .hcrc (byteAt (flipBit f j) 6) else .pcrc (byteAt (flipBit f j) (f.length - 1)))))

/-- 70_reset_and_hazards.md §2 (rule R194, which the spec marks derived): a payload frame of a sender with another length convention
is `E_LEN`, never a wrong payload; a frame without payload is not affected. -/
def Obligations.OtherLengthConventionIsRefused : Prop :=
  (∀ (s : State) (k : Fin 3) (state cmd : Byte) (serno : Serno) (p : Bytes),
    k ≠ s.cfg.kLen → 1 ≤ p.length → p.length ≤ 250 →
    exec (.frmUnpack (frameOf k state cmd serno p)) s =
      .next (answered s (.error (.len (BitVec.ofNat 8 (p.length + k.val)) (8 + p.length))))) ∧
  (∀ (s : State) (k : Fin 3) (state cmd : Byte) (serno : Serno),
    exec (.frmUnpack (frameOf k state cmd serno [])) s =
      .next (answered s (.ok (.unpacked (recordOf s.cfg.kLen state cmd serno [])))))

/-- 70_reset_and_hazards.md §2 (rule R196), the part that holds on every frame: the first part of a split reply is `E_TRUNC` or
`E_LEN`, and so is a reply with stray bytes after it. -/
def Obligations.CutOrPaddedFramesAreRefused : Prop :=
  ∀ (s : State) (state cmd : Byte) (serno : Serno) (p : Bytes), p.length ≤ 250 →
    (∀ m, m < 7 →
      exec (.frmUnpack ((frameOf s.cfg.kLen state cmd serno p).take m)) s = .next (answered s (.error (.trunc m)))) ∧
    (∀ m, 7 ≤ m → m < (frameOf s.cfg.kLen state cmd serno p).length →
      exec (.frmUnpack ((frameOf s.cfg.kLen state cmd serno p).take m)) s =
        .next (answered s (.error (.len (BitVec.ofNat 8 (lengthValue s.cfg.kLen.val p.length)) m)))) ∧
    (∀ extra : Bytes, extra ≠ [] →
      exec (.frmUnpack (frameOf s.cfg.kLen state cmd serno p ++ extra)) s =
        .next (answered s (.error (.len (BitVec.ofNat 8 (lengthValue s.cfg.kLen.val p.length))
          ((frameOf s.cfg.kLen state cmd serno p).length + extra.length)))))

/-- The other part of the sentence of rule R196, which the pseudocode of rule R130 does not bear out: that the SECOND part of a split
reply also answers `E_TRUNC` or `E_LEN`. A second part of seven bytes or more fails its header checksum first. Expected to
fail (log entry 9). -/
def Obligations.SecondPartOfSplitReplyIsTruncatedOrWrongLength : Prop :=
  ∀ (s : State) (state cmd : Byte) (serno : Serno) (p : Bytes) (m : Nat), p.length ≤ 250 →
    0 < m → m < (frameOf s.cfg.kLen state cmd serno p).length →
    ∃ e : BlockError,
      exec (.frmUnpack ((frameOf s.cfg.kLen state cmd serno p).drop m)) s = .next (answered s (.error e)) ∧
      (e.code = 0x02 ∨ e.code = 0x04)

/-! ### Rules about every operation -/

/-- 10_state.md §3 (rules R22, R23, R24) as the frame of every operation: each answers a next state, appends exactly one response, leaves the
configuration and the rest of the run alone, and only `CRC.CLR` and `CRC.FEED` write `ACC`; an error never does. -/
def Obligations.OnlyClrAndFeedWriteTheAccumulator : Prop :=
  ∀ (i : Instr) (s : State), ∃ (t : State) (r : Response),
    exec i s = .next t ∧ t.cfg = s.cfg ∧ t.script = s.script ∧ t.responses = s.responses ++ [r] ∧
    (i = .crcClr → t.acc = 0x00) ∧ (∀ b, i = .crcFeed b → t.acc = crcTableAt (s.acc ^^^ b)) ∧
    (i ≠ .crcClr → (∀ b, i ≠ .crcFeed b) → t.acc = s.acc) ∧ (r.statusCode ≠ 0x00 → t.acc = s.acc)

/-- 41_framer.md §3 (rule R142) and 40_crc8.md §3 (rule R113): the framer's and `CRC.CALC`'s responses do not depend on `ACC`, and no
CRC operation's effect depends on the configuration. -/
def Obligations.ResponsesDependOnOperandsAlone : Prop :=
  (∀ (i : Instr) (s t s' t' : State),
    i ≠ .crcRead → s.cfg.kLen = t.cfg.kLen → exec i s = .next s' → exec i t = .next t' →
    s'.responses.getLast? = t'.responses.getLast?) ∧
  (∀ (i : Instr) (s t s' t' : State),
    (∀ v c p, i ≠ .frmPack v c p) → (∀ b, i ≠ .frmUnpack b) → s.acc = t.acc →
    exec i s = .next s' → exec i t = .next t' →
    s'.acc = t'.acc ∧ s'.responses.getLast? = t'.responses.getLast?)

/-- Rule R163: an error is precise. Whichever request it answers, the step returns the error with no results and keeps `ACC` and
all else; and whatever the next request does, it does from there exactly what it would have done had the failed one never been
issued. -/
def Obligations.ErrorsLeaveNoTrace : Prop :=
  ∀ (s t : State) (r : Request) (rest : List Request) (e : BlockError),
    s.script = r :: rest → step s = .next t → t.responses = s.responses ++ [.error e] →
    t = answered { s with script := rest } (.error e) ∧ (Response.error e).results? = none ∧
    (∀ u : State, step { s with script := rest } = .next u →
      ∃ rs : List Response, u.responses = s.responses ++ rs ∧
        step t = .next { u with responses := s.responses ++ .error e :: rs }) ∧
    (∀ q : Refusal, step { s with script := rest } = .refused q ↔ step t = .refused q)

/-- 20_memory.md §3 (rule R45): `CRC.CALC`, `CRC.READ`, `FRM.PACK` and `FRM.UNPACK` are idempotent; `CRC.CLR` is in its effect; `CRC.FEED` is
not. -/
def Obligations.ReadingOperationsAreIdempotent : Prop :=
  (∀ (i : Instr) (s t u : State), i ≠ .crcClr → (∀ b, i ≠ .crcFeed b) →
    exec i s = .next t → exec i t = .next u →
    t.acc = s.acc ∧ u.acc = s.acc ∧ u.responses = s.responses ++ (t.responses.getLast?.toList ++ t.responses.getLast?.toList)) ∧
  (∀ s t u : State, exec .crcClr s = .next t → exec .crcClr t = .next u → u.acc = t.acc) ∧
  (∃ (b : Byte) (s t u : State), exec (.crcFeed b) s = .next t ∧ exec (.crcFeed b) t = .next u ∧ u.acc ≠ t.acc)

/-- 60_exceptions.md §1 (rule R160): the status of every response is one of the seven codes, 0x00 exactly when there are results. -/
def Obligations.StatusCodesAreTheSevenOfTheTable : Prop :=
  ∀ r : Response,
    r.statusCode ∈ ([0x00, 0x01, 0x02, 0x03, 0x04, 0x05, 0xFF] : List Byte) ∧
    (r.statusCode = 0x00 ↔ r.results?.isSome = true)

/-! ### Assembler syntax -/

/-- 30_encoding.md §4 (rule R72): the tokens in which an instruction is written assemble to its one request, for every operand. The
lexical details are the model's choice (log entry 10). -/
def Obligations.WrittenInstructionsAssemble : Prop :=
  ∀ i : Instr, parseLine (lineTokens i) = some [encode i]

/-- Rule R73: `crc.feedn [b0, ..., bk]` expands to `crc.feed b0`, ..., `crc.feed bk` in that order, and `crc.feedn []` to nothing;
it is the one pseudo-operation: every other line that assembles is one request. -/
def Obligations.FeednExpandsToFeedsInOrder : Prop :=
  (∀ s : Bytes,
    parseLine (.word feednWord :: seqTokens s) = some (s.map fun b => encode (.crcFeed b)) ∧
    feedn s = s.map .crcFeed) ∧
  (∀ (ts : List Token) (rs : List Request), parseLine ts = some rs → ts.head? ≠ some (.word feednWord) →
    rs.length = 1)

/-! ### Replies that are not passed whole -/

/-- 70_reset_and_hazards.md §2 (rule R196) and 41_framer.md §2 (rule R130): the block keeps nothing of one buffer for the next, so the
second part of a split reply, and a reply with stray bytes before it, is a buffer like any other: fewer than seven bytes is
`E_TRUNC`, then a seventh byte that is not the checksum of its first six is `E_HCRC`, and only after that a wrong length is
`E_LEN`, each with its info. That the order of the checks decides here, against a sentence of rule R196, is deduced (log
entry 9). -/
def Obligations.EachBufferIsAnsweredAlone : Prop :=
  ∀ (s : State) (first second : Bytes), ∃ r1 r2 : Response,
    exec (.frmUnpack first) s = .next (answered s r1) ∧
    exec (.frmUnpack second) (answered s r1) = .next (answered (answered s r1) r2) ∧
    exec (.frmUnpack second) s = .next (answered s r2) ∧
    (second.length < 7 → r2 = .error (.trunc second.length)) ∧
    (7 ≤ second.length → byteAt second 6 ≠ crc8 (second.take 6) → r2 = .error (.hcrc (byteAt second 6))) ∧
    (7 ≤ second.length → byteAt second 6 = crc8 (second.take 6) →
      expectedLen s.cfg.kLen (byteAt second 2) ≠ some second.length →
      r2 = .error (.len (byteAt second 2) second.length))

/-- The rest of the sentence of rule R196, which the pseudocode of rule R130 does not bear out: that a buffer holding a reply together
with stray bytes BEFORE it answers `E_TRUNC` or `E_LEN`. Such a buffer mostly fails its header checksum first. Expected to fail
(log entry 9). -/
def Obligations.StrayBytesBeforeAReplyAreTruncatedOrWrongLength : Prop :=
  ∀ (s : State) (state cmd : Byte) (serno : Serno) (p stray : Bytes), p.length ≤ 250 → stray ≠ [] →
    ∃ e : BlockError,
      exec (.frmUnpack (stray ++ frameOf s.cfg.kLen state cmd serno p)) s = .next (answered s (.error e)) ∧
      (e.code = 0x02 ∨ e.code = 0x04)

/-- 41_framer.md §2 and §3 (rules R130, R140, R141) on second parts and on bytes before a reply: a tail that is itself a whole frame
unpacks as that frame, and the frame around it, seven bytes and then a whole reply, unpacks as what it is; a tail that is a
frame with a header bit inverted is `E_HCRC`, and so is a whole reply behind the first seven bytes of such a frame. On these
buffers two sentences of 70_reset_and_hazards.md rule R196 say `E_TRUNC` or `E_LEN`; that R130 decides is deduced (log entry 9). -/
def Obligations.TailsThatAreFramesUnpackAsFrames : Prop :=
  (∀ (s : State) (state cmd innerState innerCmd : Byte) (serno innerSerno : Serno) (inner outer : Bytes),
    inner = frameOf s.cfg.kLen innerState innerCmd innerSerno [] →
    outer = frameOf s.cfg.kLen state cmd serno (inner.take 6) →
    outer = outer.take 7 ++ inner ∧
    exec (.frmUnpack (outer.drop 7)) s =
      .next (answered s (.ok (.unpacked (recordOf s.cfg.kLen innerState innerCmd innerSerno [])))) ∧
    exec (.frmUnpack outer) s =
      .next (answered s (.ok (.unpacked (recordOf s.cfg.kLen state cmd serno (inner.take 6))))) ∧
    exec (.frmUnpack (flipBit outer 0)) s = .next (answered s (.error (.hcrc (byteAt outer 6)))) ∧
    (flipBit outer 0).drop 7 = inner) ∧
  (∀ (s : State) (state cmd : Byte) (serno : Serno) (outer : Bytes),
    outer = frameOf s.cfg.kLen state cmd serno [0x19, 0xFC, 0x00, 0x00, 0x00, 0x00, 0x00] →
    outer.drop 8 = flipBit (frameOf s.cfg.kLen 0xFD 0x00 0x000000 []) 0 ∧
    exec (.frmUnpack (outer.drop 8)) s = .next (answered s (.error (.hcrc 0x38))))

/-- 41_framer.md §2 (rule R130), 10_state.md §5 (rule R38) and 60_exceptions.md §1 (rule R160): a buffer that is not one whole frame
and nothing else is answered with one of the four errors of `FRM.UNPACK`, each a `StructuralError`, and never with a part of a
record. So a part of a split reply, or a reply with stray bytes, is refused unless it is by itself a whole frame. -/
def Obligations.AnyOtherBufferIsAStructuralError : Prop :=
  ∀ (s : State) (buf : Bytes),
    (¬∃ (state cmd : Byte) (serno : Serno) (p : Bytes), p.length ≤ 250 ∧ buf = frameOf s.cfg.kLen state cmd serno p) →
    ∃ e : BlockError,
      exec (.frmUnpack buf) s = .next (answered s (.error e)) ∧ e.isStructuralError = true ∧
      e.code ∈ ([0x02, 0x03, 0x04, 0x05] : List Byte)
end

