-- ==== Sys2Proof/Laws/Crc.lean ====
section
/-! SUPPORT. The recursion equations of the checksum and the one property of a round from which its laws follow: a round
is linear. -/

namespace Sys2Proof.Machine

open Sys2Proof

@[simp] theorem crcFrom_nil (c : Byte) : crcFrom c [] = c := rfl
@[simp] theorem crcFrom_cons (c b : Byte) (s : Bytes) : crcFrom c (b :: s) = crcFrom (crc8Step c b) s := rfl
@[simp] theorem crc8_nil : crc8 [] = 0x00 := rfl

theorem crcFrom_append (c : Byte) (s t : Bytes) : crcFrom c (s ++ t) = crcFrom (crcFrom c s) t := by
  simp [crcFrom, List.foldl_append]

theorem crc8_append (s t : Bytes) : crc8 (s ++ t) = crcFrom (crc8 s) t := crcFrom_append _ s t

theorem crc8_append_singleton (s : Bytes) (b : Byte) : crc8 (s ++ [b]) = crc8Step (crc8 s) b := by
  simp [crc8_append]

theorem crcRound_xor (x y : Byte) : crcRound (x ^^^ y) = crcRound x ^^^ crcRound y := by
  have hassoc : ∀ a b p : Byte, (a ^^^ b) ^^^ p = (a ^^^ p) ^^^ b := by
    intro a b p
    rw [BitVec.xor_assoc, BitVec.xor_comm b p, ← BitVec.xor_assoc]
  unfold crcRound
  cases hx : x.getLsbD 0 <;> cases hy : y.getLsbD 0 <;>
    simp only [BitVec.getLsbD_xor, hx, hy, BitVec.ushiftRight_xor_distrib, Bool.xor_false, Bool.false_xor, Bool.xor_self,
      if_true, if_false, Bool.false_eq_true]
  · rw [BitVec.xor_assoc]
  · rw [hassoc]
  · rw [← BitVec.xor_assoc, hassoc (x >>> 1) crcPoly (y >>> 1), BitVec.xor_assoc _ crcPoly crcPoly]
    simp

theorem crcRounds_xor (n : Nat) (x y : Byte) : crcRounds n (x ^^^ y) = crcRounds n x ^^^ crcRounds n y := by
  induction n generalizing x y with
  | zero => rfl
  | succ n ih => simp [crcRounds, crcRound_xor, ih]

end Sys2Proof.Machine
end

