-- ==== Sys2Proof/Laws/Decode.lean ====
section
/-! SUPPORT. What each function of the decoder does, said once: the operation table has one row a code, a record of a
legal code decodes by its operands alone, and a number is taken as a field exactly when it fits. -/

namespace Sys2Proof

/-- No code matches two rows of the table. -/
theorem opTable_rows_disjoint :
    opTable.Pairwise fun a b => ∀ op : Byte, ¬(op &&& a.mask = a.pattern ∧ op &&& b.mask = b.pattern) := by
  have hfull : ∀ op : Byte, op &&& 0xFF = op := by decide +kernel
  simp only [opTable, List.pairwise_cons, List.mem_cons, List.not_mem_nil, or_false, forall_eq_or_imp, forall_eq, hfull]
  refine ⟨?_, ?_, ?_, ?_, ?_, ?_⟩ <;> simp +contextual

@[simp] theorem decodeOp_code (op : Op) : decodeOp op.code = some op := by cases op <;> decide

/-- The table names exactly the codes of `Op.code`. -/
theorem decodeOp_eq_some {n : Nat} {op : Op} (hn : n < 256) (h : decodeOp (BitVec.ofNat 8 n) = some op) :
    n = op.code.toNat := by
  have hall : ∀ n, n < 256 → (decodeOp (BitVec.ofNat 8 n)).all (fun op => n == op.code.toNat) = true := by
    decide +kernel
  simpa [h] using hall n hn

/-- The table's codes are the legal ones. -/
theorem decodeOp_isSome {n : Nat} (hn : n < 256) : (decodeOp (BitVec.ofNat 8 n)).isSome = legalOp n := by
  have hall : ∀ n, n < 256 → (decodeOp (BitVec.ofNat 8 n)).isSome = legalOp n := by decide +kernel
  exact hall n hn

/-- A record with an operation's code decodes by its operands. -/
theorem decode_code (op : Op) (o : Operands) : decode { op := op.code.toNat, operands := o } = decodeOperands op o := by
  have hlt : op.code.toNat < 256 := op.code.isLt
  simp [decode, hlt]

/-- A record with an illegal code of 8 bits is an illegal operation. -/
theorem decode_illegal {r : Request} (hn : r.op < 256) (hl : legalOp r.op = false) :
    decode r = .error (.illegalOp (BitVec.ofNat 8 r.op)) := by
  rw [← decodeOp_isSome hn] at hl
  cases hd : decodeOp (BitVec.ofNat 8 r.op) with
  | none => simp [decode, hn, hd]
  | some op => simp [hd] at hl

@[simp] theorem toByte_toNat (b : Byte) : toByte b.toNat = .ok b := by
  have hlt : b.toNat < 256 := b.isLt
  simp [toByte, hlt]

@[simp] theorem toSerno_toNat (v : Serno) : toSerno v.toNat = .ok v := by
  have hlt : v.toNat < 16777216 := v.isLt
  simp [toSerno, hlt]

@[simp] theorem toBytes_ofBytes (s : Bytes) : toBytes (ofBytes s) = .ok s := by
  induction s with
  | nil => rfl
  | cons b s ih =>
    have hrest : toBytes (s.map BitVec.toNat) = .ok s := ih
    simp [ofBytes, toBytes, hrest]

@[simp] theorem toPayload_ofBytes (p : Option Bytes) : toPayload (p.map ofBytes) = .ok p := by
  cases p with
  | none => rfl
  | some p => simp [toPayload, Except.map]

theorem toByte_of_wide {n : Nat} (h : 256 ≤ n) : toByte n = .error (.wideByte n) := by
  simp [toByte, Nat.not_lt.mpr h]

theorem toSerno_of_wide {n : Nat} (h : 16777216 ≤ n) : toSerno n = .error (.wideSerno n) := by
  simp [toSerno, Nat.not_lt.mpr h]

/-- The first number of a sequence that is too wide is the one named. -/
theorem toBytes_of_wide (before : Bytes) {n : Nat} (after : List Nat) (h : 256 ≤ n) :
    toBytes (ofBytes before ++ n :: after) = .error (.wideByte n) := by
  induction before with
  | nil => simp [ofBytes, toBytes, toByte_of_wide h]
  | cons b s ih =>
    have hrest : toBytes (s.map BitVec.toNat ++ n :: after) = .error (.wideByte n) := ih
    simp [ofBytes, toBytes, hrest]

/-- A code wider than 8 bits is named before anything else is looked at. -/
theorem decode_of_wide {r : Request} (h : 256 ≤ r.op) : decode r = .error (.wideOp r.op) := by
  simp [decode, Nat.not_lt.mpr h]

/-- A number taken as a byte is that byte's number. -/
theorem toByte_ok {n : Nat} {b : Byte} (h : toByte n = .ok b) : n = b.toNat := by
  unfold toByte at h
  split at h
  · cases h
    simp
    omega
  · cases h

/-- A number taken as a serial number is that serial number's number. -/
theorem toSerno_ok {n : Nat} {v : Serno} (h : toSerno n = .ok v) : n = v.toNat := by
  unfold toSerno at h
  split at h
  · cases h
    simp
    omega
  · cases h

/-- Numbers taken as a sequence are that sequence's numbers. -/
theorem toBytes_ok {ns : List Nat} {s : Bytes} (h : toBytes ns = .ok s) : ns = ofBytes s := by
  induction ns generalizing s with
  | nil => cases h; rfl
  | cons n ns ih =>
    simp only [toBytes] at h
    split at h
    · next hb hs =>
      cases h
      simp [ofBytes, toByte_ok hb]
      exact ih hs
    · cases h
    · cases h

/-- Numbers taken as a payload are that payload's numbers. -/
theorem toPayload_ok {p : Option (List Nat)} {q : Option Bytes} (h : toPayload p = .ok q) : p = q.map ofBytes := by
  cases p with
  | none => cases h; rfl
  | some ns =>
    simp only [toPayload] at h
    cases hb : toBytes ns with
    | error e => simp [hb, Except.map] at h
    | ok s =>
      simp only [hb, Except.map] at h
      cases h
      simp [toBytes_ok hb]

/-- The numbers that fit a byte are taken. -/
theorem toByte_of_fits {n : Nat} (h : fitsByte n = true) : toByte n = .ok (BitVec.ofNat 8 n) := by
  simp only [fitsByte, decide_eq_true_eq] at h
  simp [toByte, h]

/-- The numbers that fit a serial number are taken. -/
theorem toSerno_of_fits {n : Nat} (h : fitsSerno n = true) : toSerno n = .ok (BitVec.ofNat 24 n) := by
  simp only [fitsSerno, decide_eq_true_eq] at h
  rw [toSerno, if_pos (by omega)]

/-- A sequence of numbers that fit is taken. -/
theorem toBytes_of_fits {ns : List Nat} (h : ns.all fitsByte = true) : toBytes ns = .ok (ns.map (BitVec.ofNat 8)) := by
  induction ns with
  | nil => rfl
  | cons n ns ih =>
    simp only [List.all_cons, Bool.and_eq_true] at h
    simp [toBytes, toByte_of_fits h.1, ih h.2]

theorem toByte_ne_illegalOp (n : Nat) (c : Byte) : toByte n ≠ .error (.illegalOp c) := by
  unfold toByte
  split <;> simp

theorem toSerno_ne_illegalOp (n : Nat) (c : Byte) : toSerno n ≠ .error (.illegalOp c) := by
  unfold toSerno
  split <;> simp

theorem toBytes_ne_illegalOp (ns : List Nat) (c : Byte) : toBytes ns ≠ .error (.illegalOp c) := by
  induction ns with
  | nil => simp [toBytes]
  | cons n ns ih =>
    have hb := toByte_ne_illegalOp n c
    cases h1 : toByte n <;> cases h2 : toBytes ns <;> simp_all [toBytes]

theorem toPayload_ne_illegalOp (p : Option (List Nat)) (c : Byte) : toPayload p ≠ .error (.illegalOp c) := by
  cases p with
  | none => simp [toPayload]
  | some ns =>
    have hb := toBytes_ne_illegalOp ns c
    cases h : toBytes ns <;> simp_all [toPayload, Except.map]

theorem map_ne_illegalOp {α β : Type} {x : Except DecodeError α} {f : α → β} {c : Byte}
    (h : x ≠ .error (.illegalOp c)) : x.map f ≠ .error (.illegalOp c) := by
  cases x <;> simp_all [Except.map]

/-- Once the code has been read, no operand makes it illegal. -/
theorem decodeOperands_ne_illegalOp (op : Op) (o : Operands) (c : Byte) :
    decodeOperands op o ≠ .error (.illegalOp c) := by
  unfold decodeOperands
  split
  · simp
  · exact map_ne_illegalOp (toByte_ne_illegalOp _ c)
  · simp
  · exact map_ne_illegalOp (toBytes_ne_illegalOp _ c)
  · next serno cmd payload =>
    have h1 := toSerno_ne_illegalOp serno c
    have h2 := toByte_ne_illegalOp cmd c
    have h3 := toPayload_ne_illegalOp payload c
    cases hs : toSerno serno <;> cases hc : toByte cmd <;> cases hp : toPayload payload <;> simp_all
  · exact map_ne_illegalOp (toBytes_ne_illegalOp _ c)
  · simp

end Sys2Proof
end

