-- ==== Sys2Proof/Laws/State.lean ====
section
/-! SUPPORT. What each state update does to each field, so that no later proof unfolds a record update. -/

namespace Sys2Proof.Machine

open Sys2Proof

@[simp] theorem State.respond_cfg (s : State) (r : Response) : (s.respond r).cfg = s.cfg := rfl
@[simp] theorem State.respond_acc (s : State) (r : Response) : (s.respond r).acc = s.acc := rfl
@[simp] theorem State.respond_script (s : State) (r : Response) : (s.respond r).script = s.script := rfl
@[simp] theorem State.respond_responses (s : State) (r : Response) :
    (s.respond r).responses = s.responses ++ [r] := rfl

@[simp] theorem State.setAcc_cfg (s : State) (v : Byte) : (s.setAcc v).cfg = s.cfg := rfl
@[simp] theorem State.setAcc_acc (s : State) (v : Byte) : (s.setAcc v).acc = v := rfl
@[simp] theorem State.setAcc_script (s : State) (v : Byte) : (s.setAcc v).script = s.script := rfl
@[simp] theorem State.setAcc_responses (s : State) (v : Byte) : (s.setAcc v).responses = s.responses := rfl

@[simp] theorem State.complete_eq (s : State) (r : Results) : s.complete r = s.respond (.ok r) := rfl
@[simp] theorem State.raise_eq (s : State) (e : BlockError) : s.raise e = s.respond (.error e) := rfl

@[simp] theorem State.finish_ok {α : Type} (s : State) (result : α → Results) (a : α) :
    s.finish result (.ok a) = s.respond (.ok (result a)) := rfl
@[simp] theorem State.finish_error {α : Type} (s : State) (result : α → Results) (e : BlockError) :
    s.finish result (.error e) = s.respond (.error e) := rfl

@[simp] theorem State.resetWith_cfg (c : BlockConfig) : (State.resetWith c).cfg = c := rfl
@[simp] theorem State.resetWith_acc (c : BlockConfig) : (State.resetWith c).acc = 0x00 := rfl
@[simp] theorem State.resetWith_script (c : BlockConfig) : (State.resetWith c).script = [] := rfl
@[simp] theorem State.resetWith_responses (c : BlockConfig) : (State.resetWith c).responses = [] := rfl

/-- A state is its four fields. -/
theorem State.eq_of_fields {s t : State} (hc : s.cfg = t.cfg) (ha : s.acc = t.acc) (hs : s.script = t.script)
    (hr : s.responses = t.responses) : s = t := by
  cases s; cases t; simp_all

end Sys2Proof.Machine
end

