-- ==== Sys2Proof/Laws/Ops.lean ====
section
/-! SUPPORT. What each shared operation can do, said once: `finish`, `reject`, `issue` and `step`. -/

namespace Sys2Proof.Machine

open Sys2Proof

/-- `finish` appends exactly one response: the value's results, or the error raised. -/
theorem State.finish_cases {α : Type} (s : State) (result : α → Results) (x : Except BlockError α) :
    (∃ a, x = .ok a ∧ s.finish result x = s.respond (.ok (result a))) ∨
    (∃ e, x = .error e ∧ s.finish result x = s.respond (.error e)) := by
  cases x with
  | ok a => exact .inl ⟨a, rfl, rfl⟩
  | error e => exact .inr ⟨e, rfl, rfl⟩

/-- Only an illegal code gets an answer out of `reject`, and the answer is `E_ILLOP`. -/
theorem reject_next {e : DecodeError} {s t : State} (h : reject e s = .next t) :
    ∃ op, e = .illegalOp op ∧ t = s.respond (.error (.illop op)) := by
  cases e with
  | illegalOp op => exact ⟨op, rfl, by cases h; rfl⟩
  | wideOp | wideByte | wideSerno | operandMismatch => cases h

/-- The two ways a request is answered: it decodes, is within the bound, and its operation answers; or its code is illegal. -/
theorem issue_cases {r : Request} {s t : State} (h : issue r s = .next t) :
    (∃ i, decode r = .ok i ∧ withinBound s.cfg i = true ∧ exec i s = .next t) ∨
    (∃ op, decode r = .error (.illegalOp op) ∧ t = s.respond (.error (.illop op))) := by
  unfold issue at h
  split at h
  · split at h
    · exact .inl ⟨_, ‹_›, ‹_›, h⟩
    · cases h
  · obtain ⟨op, rfl, rfl⟩ := reject_next h
    exact .inr ⟨op, ‹_›, rfl⟩

/-- A request that decodes to an instruction within the bound is performed by `exec`. -/
theorem issue_of_decode {r : Request} {i : Instr} {s : State} (hd : decode r = .ok i)
    (hb : withinBound s.cfg i = true) : issue r s = exec i s := by
  simp [issue, hd, hb]

/-- A request with an illegal code is answered with `E_ILLOP`. -/
theorem issue_of_illegalOp {r : Request} {op : Byte} {s : State} (hd : decode r = .error (.illegalOp op)) :
    issue r s = .next (s.respond (.error (.illop op))) := by
  simp [issue, hd, reject]

/-- With no request the step is idle. -/
theorem step_nil {s : State} (h : s.script = []) : step s = .next s := by
  simp [step, h, idle]

/-- With a request the step issues it, off the script. -/
theorem step_cons {s : State} {r : Request} {rest : List Request} (h : s.script = r :: rest) :
    step s = issue r { s with script := rest } := by
  simp [step, h]

/-- The two ways a step answers: idle, or the next request is answered. -/
theorem step_cases {s t : State} (h : step s = .next t) :
    (s.script = [] ∧ t = s) ∨
    (∃ r rest, s.script = r :: rest ∧ issue r { s with script := rest } = .next t) := by
  cases hs : s.script with
  | nil =>
    rw [step_nil hs] at h
    cases h
    exact .inl ⟨rfl, rfl⟩
  | cons r rest =>
    rw [step_cons hs] at h
    exact .inr ⟨r, rest, rfl, h⟩

end Sys2Proof.Machine
end

