-- ==== Sys2Proof/Laws/Exec.lean ====
section
/-! SUPPORT. What `exec` does with each instruction, in terms of the state updates, and what every instruction's next state
has in common. -/

namespace Sys2Proof.Machine

open Sys2Proof

@[simp] theorem exec_crcClr (s : State) :
    exec .crcClr s = .next ((s.setAcc crcSeed).respond (.ok .noResults)) := rfl
@[simp] theorem exec_crcFeed (b : Byte) (s : State) :
    exec (.crcFeed b) s = .next ((s.setAcc (crc8Step s.acc b)).respond (.ok .noResults)) := rfl
@[simp] theorem exec_crcRead (s : State) : exec .crcRead s = .next (s.respond (.ok (.crc s.acc))) := rfl
@[simp] theorem exec_crcCalc (d : Bytes) (s : State) :
    exec (.crcCalc d) s = .next (s.respond (.ok (.crc (crc8 d)))) := rfl
@[simp] theorem exec_frmPack (v : Serno) (c : Byte) (p : Option Bytes) (s : State) :
    exec (.frmPack v c p) s = .next (s.finish .frame (pack s.cfg.kLen v c p)) := rfl
@[simp] theorem exec_frmUnpack (b : Bytes) (s : State) :
    exec (.frmUnpack b) s = .next (s.finish .unpacked (unpack s.cfg.kLen b)) := rfl

/-- What an operation writes to `ACC`. -/
def accAfter (i : Instr) (acc : Byte) : Byte :=
  match i with
  | .crcClr => crcSeed
  | .crcFeed b => crc8Step acc b
  | .crcRead | .crcCalc _ | .frmPack _ _ _ | .frmUnpack _ => acc

/-- The one response of an operation. -/
def responseOf (k : Fin 3) (acc : Byte) : Instr → Response
  | .crcClr => .ok .noResults
  | .crcFeed _ => .ok .noResults
  | .crcRead => .ok (.crc acc)
  | .crcCalc d => .ok (.crc (crc8 d))
  | .frmPack v c p =>
    match pack k v c p with
    | .ok f => .ok (.frame f)
    | .error e => .error e
  | .frmUnpack b =>
    match unpack k b with
    | .ok u => .ok (.unpacked u)
    | .error e => .error e

/-- Every operation is a new `ACC` and one response. -/
theorem exec_eq (i : Instr) (s : State) :
    exec i s = .next ((s.setAcc (accAfter i s.acc)).respond (responseOf s.cfg.kLen s.acc i)) := by
  cases i with
  | crcClr | crcFeed | crcRead | crcCalc => rfl
  | frmPack v c p =>
    simp only [exec_frmPack, responseOf, accAfter]
    cases pack s.cfg.kLen v c p <;> rfl
  | frmUnpack b =>
    simp only [exec_frmUnpack, responseOf, accAfter]
    cases unpack s.cfg.kLen b <;> rfl

end Sys2Proof.Machine
end

