-- ==== Sys2Proof/Laws/Framer.lean ====
section
/-! SUPPORT. What `unpack` does with a buffer whose first seven bytes are named, and the shape of a built frame. -/

namespace Sys2Proof.Machine

open Sys2Proof

/-- A buffer is shorter than seven bytes, or its first seven bytes can be named. -/
theorem short_or_seven (buf : Bytes) :
    buf.length < 7 ∨ ∃ a0 a1 a2 a3 a4 a5 c rest, buf = a0 :: a1 :: a2 :: a3 :: a4 :: a5 :: c :: rest := by
  match buf with
  | a0 :: a1 :: a2 :: a3 :: a4 :: a5 :: c :: rest => exact .inr ⟨a0, a1, a2, a3, a4, a5, c, rest, rfl⟩
  | [] | [_] | [_, _] | [_, _, _] | [_, _, _, _] | [_, _, _, _, _] | [_, _, _, _, _, _] => exact .inl (by simp)

theorem unpack_of_short (k : Fin 3) {buf : Bytes} (h : buf.length < 7) :
    unpack k buf = .error (.trunc buf.length) := by
  simp [unpack, h]

section seven

variable (k : Fin 3) (a0 a1 a2 a3 a4 a5 c : Byte) (rest : Bytes)

/-- A wrong header checksum is reported before anything else. -/
theorem unpack_of_hcrc (h : c ≠ crc8 [a0, a1, a2, a3, a4, a5]) :
    unpack k (a0 :: a1 :: a2 :: a3 :: a4 :: a5 :: c :: rest) = .error (.hcrc c) := by
  simp [unpack, byteAt, slice, h]

/-- After a good header checksum only the length byte and what follows it matter. -/
theorem unpack_of_good_hcrc (h : c = crc8 [a0, a1, a2, a3, a4, a5]) :
    unpack k (a0 :: a1 :: a2 :: a3 :: a4 :: a5 :: c :: rest) =
      if a2 = 0 then
        if rest.length + 7 ≠ 7 then .error (.len a2 (rest.length + 7))
        else .ok (unpackedOf (a0 :: a1 :: a2 :: a3 :: a4 :: a5 :: c :: rest) none)
      else unpackPayload k (a0 :: a1 :: a2 :: a3 :: a4 :: a5 :: c :: rest) := by
  have hlen : (a0 :: a1 :: a2 :: a3 :: a4 :: a5 :: c :: rest).length = rest.length + 7 := rfl
  rw [unpack, hlen, if_neg (by omega), if_neg (by simp [byteAt, slice, h])]
  rfl

/-- After a good header checksum a length byte of 0 asks for exactly seven bytes. -/
theorem unpack_of_zero (h : c = crc8 [a0, a1, a2, a3, a4, a5]) (h0 : a2 = 0) :
    unpack k (a0 :: a1 :: a2 :: a3 :: a4 :: a5 :: c :: rest) =
      if rest = [] then .ok { state := a0, command := a1, length := a2, serno := sernoOfBytes a3 a4 a5, payload := none }
      else .error (.len a2 (7 + rest.length)) := by
  rw [unpack_of_good_hcrc (h := h), if_pos h0]
  cases rest with
  | nil => rfl
  | cons b bs => rw [if_pos (by simp), if_neg (by simp), Nat.add_comm]

/-- After a good header checksum a length byte without a meaning, or one that disagrees with what follows, is `E_LEN`. -/
theorem unpack_of_len (h : c = crc8 [a0, a1, a2, a3, a4, a5]) (h0 : a2 ≠ 0)
    (hl : a2.toNat ≤ k.val ∨ 250 + k.val < a2.toNat ∨ rest.length ≠ a2.toNat - k.val + 1) :
    unpack k (a0 :: a1 :: a2 :: a3 :: a4 :: a5 :: c :: rest) = .error (.len a2 (7 + rest.length)) := by
  have hlen : (a0 :: a1 :: a2 :: a3 :: a4 :: a5 :: c :: rest).length = 7 + rest.length := Nat.add_comm rest.length 7
  have hl2 : byteAt (a0 :: a1 :: a2 :: a3 :: a4 :: a5 :: c :: rest) 2 = a2 := rfl
  rw [unpack_of_good_hcrc (h := h), if_neg h0, unpackPayload, hlen, hl2]
  by_cases hr : a2.toNat < k.val + 1 ∨ a2.toNat > 250 + k.val
  · rw [if_pos hr]
  · rw [if_neg hr, if_pos (by omega)]

/-- After good lengths the last byte is held against the checksum of everything before it. -/
theorem unpack_of_payload (p : Bytes) (e : Byte) (h : c = crc8 [a0, a1, a2, a3, a4, a5])
    (hp : 1 ≤ p.length ∧ p.length ≤ 250) (hl : a2.toNat = p.length + k.val) :
    unpack k (a0 :: a1 :: a2 :: a3 :: a4 :: a5 :: c :: (p ++ [e])) =
      if e = crc8 (a0 :: a1 :: a2 :: a3 :: a4 :: a5 :: c :: p) then
        .ok { state := a0, command := a1, length := a2, serno := sernoOfBytes a3 a4 a5, payload := some p }
      else .error (.pcrc e) := by
  have h0 : a2 ≠ 0 := by
    rintro rfl
    have hz : (0 : Byte).toNat = 0 := rfl
    omega
  have hn : a2.toNat - k.val = p.length := by omega
  have hlen : (a0 :: a1 :: a2 :: a3 :: a4 :: a5 :: c :: (p ++ [e])).length = 8 + p.length := by
    simp only [List.length_cons, List.length_append, List.length_nil]
    omega
  have hl2 : byteAt (a0 :: a1 :: a2 :: a3 :: a4 :: a5 :: c :: (p ++ [e])) 2 = a2 := rfl
  have hidx : 7 + p.length = p.length + 1 + 1 + 1 + 1 + 1 + 1 + 1 := by omega
  have hlast : byteAt (a0 :: a1 :: a2 :: a3 :: a4 :: a5 :: c :: (p ++ [e])) (7 + p.length) = e := by
    simp [byteAt, hidx]
  have hbody : slice (a0 :: a1 :: a2 :: a3 :: a4 :: a5 :: c :: (p ++ [e])) 0 (7 + p.length) =
      a0 :: a1 :: a2 :: a3 :: a4 :: a5 :: c :: p := by
    simp [slice, hidx]
  have hpay : slice (a0 :: a1 :: a2 :: a3 :: a4 :: a5 :: c :: (p ++ [e])) 7 (7 + p.length) = p := by
    simp [slice, hidx]
  rw [unpack_of_good_hcrc (h := h), if_neg h0, unpackPayload, hl2, hn, hlen]
  dsimp only
  rw [hlast, hbody, hpay, if_neg (by omega), if_neg (by omega)]
  by_cases he : e = crc8 (a0 :: a1 :: a2 :: a3 :: a4 :: a5 :: c :: p)
  · rw [if_neg (not_not.mpr he), if_pos he]
    rfl
  · rw [if_pos he, if_neg he]

end seven

/-- A length byte other than 0 does not declare `7 + n` bytes exactly when it has no meaning or counts other bytes. -/
theorem expectedLen_ne_iff (k : Fin 3) {l : Byte} {n : Nat} (h0 : l ≠ 0) :
    expectedLen k l ≠ some (7 + n) ↔ (l.toNat ≤ k.val ∨ 250 + k.val < l.toNat ∨ n ≠ l.toNat - k.val + 1) := by
  rw [expectedLen, if_neg h0]
  split
  · simp only [ne_eq, Option.some.injEq]
    omega
  · simp only [ne_eq, reduceCtorEq, not_false_eq_true, true_iff]
    omega

/-- Any buffer of seven bytes or more whose seventh is not the checksum of its first six is `E_HCRC`. -/
theorem unpack_of_wrong_hcrc (k : Fin 3) {buf : Bytes} (h7 : 7 ≤ buf.length) (h : byteAt buf 6 ≠ crc8 (buf.take 6)) :
    unpack k buf = .error (.hcrc (byteAt buf 6)) := by
  obtain hs | ⟨a0, a1, a2, a3, a4, a5, c, rest, rfl⟩ := short_or_seven buf
  · omega
  · exact unpack_of_hcrc k a0 a1 a2 a3 a4 a5 c rest h

/-- Any buffer of seven bytes or more with a good header checksum whose length byte does not declare its length is `E_LEN`. -/
theorem unpack_of_wrong_len (k : Fin 3) {buf : Bytes} (h7 : 7 ≤ buf.length) (h : byteAt buf 6 = crc8 (buf.take 6))
    (hl : expectedLen k (byteAt buf 2) ≠ some buf.length) :
    unpack k buf = .error (.len (byteAt buf 2) buf.length) := by
  obtain hs | ⟨a0, a1, a2, a3, a4, a5, c, rest, rfl⟩ := short_or_seven buf
  · omega
  · have hlen : (a0 :: a1 :: a2 :: a3 :: a4 :: a5 :: c :: rest).length = 7 + rest.length := Nat.add_comm rest.length 7
    have hc : c = crc8 [a0, a1, a2, a3, a4, a5] := h
    have hl2 : byteAt (a0 :: a1 :: a2 :: a3 :: a4 :: a5 :: c :: rest) 2 = a2 := rfl
    rw [hlen, hl2] at hl ⊢
    by_cases h0 : a2 = 0
    · rw [unpack_of_zero (h := hc) (h0 := h0), if_neg]
      rintro rfl
      exact hl (by simp [expectedLen, h0])
    · exact unpack_of_len k a0 a1 a2 a3 a4 a5 c rest hc h0 ((expectedLen_ne_iff k h0).mp hl)

/-- The bytes of a built frame. -/
theorem buildFrame_eq (k : Fin 3) (state cmd : Byte) (serno : Serno) (p : Bytes) :
    buildFrame k state cmd serno p =
      if p = [] then withCrc (header state cmd (lengthByte k 0) serno)
      else withCrc (withCrc (header state cmd (lengthByte k p.length) serno) ++ p) := by
  cases p <;> simp [buildFrame]

theorem header_length (state cmd l : Byte) (serno : Serno) : (header state cmd l serno).length = 6 := rfl

theorem withCrc_length (s : Bytes) : (withCrc s).length = s.length + 1 := by simp [withCrc]

theorem pack_ok {k : Fin 3} {serno : Serno} {cmd : Byte} {payload : Option Bytes} {f : Bytes}
    (h : pack k serno cmd payload = .ok f) :
    (payload.getD []).length ≤ 250 ∧ f = buildFrame k reqMarker cmd serno (payload.getD []) := by
  simp only [pack, Config.maxPayload] at h
  split at h
  · cases h
  · cases h
    exact ⟨by omega, rfl⟩

theorem pack_of_le {k : Fin 3} {serno : Serno} {cmd : Byte} {payload : Option Bytes}
    (h : (payload.getD []).length ≤ 250) :
    pack k serno cmd payload = .ok (buildFrame k reqMarker cmd serno (payload.getD [])) := by
  simp only [pack, Config.maxPayload]
  rw [if_neg (by omega)]

theorem pack_of_gt {k : Fin 3} {serno : Serno} {cmd : Byte} {payload : Option Bytes}
    (h : 250 < (payload.getD []).length) :
    pack k serno cmd payload = .error (.oversize (payload.getD []).length) := by
  simp only [pack, Config.maxPayload]
  rw [if_pos (by omega)]

end Sys2Proof.Machine
end

