-- ==== Sys2Proof/Laws/PerInstr.lean ====
section
/-! SUPPORT. Per-instruction facts about the syntax: the record `encode` writes for an instruction is well formed. -/

namespace Sys2Proof.Laws

open Sys2Proof

/-- The record of an instruction carries a legal code, that code's operands, and every operand in its width. -/
def EncodeFits.Statement (i : Instr) : Prop := (encode i).wf = true

theorem fitsByte_toNat (b : Byte) : fitsByte b.toNat = true := by
  have := b.isLt
  simp only [fitsByte, decide_eq_true_eq]
  omega

theorem fitsSerno_toNat (v : Serno) : fitsSerno v.toNat = true := by
  have := v.isLt
  simp only [fitsSerno, decide_eq_true_eq]
  omega

theorem ofBytes_fit (s : Bytes) : (ofBytes s).all fitsByte = true := by
  simp [ofBytes, fitsByte_toNat]

theorem EncodeFits.crcClr : EncodeFits.Statement .crcClr := rfl

theorem EncodeFits.crcFeed (b : Byte) : EncodeFits.Statement (.crcFeed b) := fitsByte_toNat b

theorem EncodeFits.crcRead : EncodeFits.Statement .crcRead := rfl

theorem EncodeFits.crcCalc (data : Bytes) : EncodeFits.Statement (.crcCalc data) := ofBytes_fit data

theorem EncodeFits.frmPack (serno : Serno) (cmd : Byte) (payload : Option Bytes) :
    EncodeFits.Statement (.frmPack serno cmd payload) := by
  have hp : ((payload.map ofBytes).getD []).all fitsByte = true := by
    cases payload with
    | none => rfl
    | some p => exact ofBytes_fit p
  simp [EncodeFits.Statement, encode, Request.wf, Request.shapeFits, Operands.widthsFit, legalOp, fitsByte_toNat,
    fitsSerno_toNat, -List.all_eq_true, hp]

theorem EncodeFits.frmUnpack (buf : Bytes) : EncodeFits.Statement (.frmUnpack buf) := ofBytes_fit buf

end Sys2Proof.Laws
end

