-- ==== Sys2Proof/Tests/Slice0.lean ====
section
/-! SUPPORT. The model's own tests: the checks refuse ill-formed terms, the spec's written words decode, each operation gives the
spec's vectors (95_test_vectors.md, and the worked examples of 40_crc8.md and 41_framer.md), and the hypotheses of each
statement can be met. -/

namespace Sys2Proof.Tests

open Sys2Proof Sys2Proof.Machine Sys2Proof.Spec

/-- A small state: `K_LEN`, `ACC`, and the requests still to be issued. -/
def small (k : Fin 3) (acc : Byte) (script : List Request) : State :=
  { cfg := { kLen := k, maxIn := none }, acc := acc, script := script, responses := [] }

/-- The first response of an outcome. -/
def firstResponse : StepOutcome → Option Response
  | .next t => t.responses.head?
  | .fault _ => none
  | .refused _ => none

/-- `ACC` after an outcome. -/
def accOf : StepOutcome → Option Byte
  | .next t => some t.acc
  | .fault _ => none
  | .refused _ => none

/-! ### The checks refuse ill-formed terms -/

theorem test_wf_refuses_illegal_op : ({ op := 0x14, operands := .noOperands } : Request).wf = false := by decide
theorem test_wf_refuses_other_operands : ({ op := 0x11, operands := .noOperands } : Request).wf = false := by decide
theorem test_wf_refuses_wide_byte : ({ op := 0x11, operands := .byte 256 } : Request).wf = false := by decide
theorem test_wf_refuses_wide_data : ({ op := 0x13, operands := .data [255, 256] } : Request).wf = false := by decide
theorem test_wf_refuses_wide_serno :
    ({ op := 0x20, operands := .packet 16777216 0 none } : Request).wf = false := by decide
theorem test_wf_refuses_wide_cmd : ({ op := 0x20, operands := .packet 0 256 none } : Request).wf = false := by decide
theorem test_wf_refuses_wide_payload :
    ({ op := 0x20, operands := .packet 0 0 (some [256]) } : Request).wf = false := by decide
theorem test_wf_refuses_wide_buffer : ({ op := 0x21, operands := .buffer [256] } : Request).wf = false := by decide
theorem test_wf_takes_the_largest_operands :
    ({ op := 0x20, operands := .packet 16777215 255 (some [255]) } : Request).wf = true := by decide
theorem test_wf_refuses_small_bound : ({ kLen := 0, maxIn := some 257 } : BlockConfig).wf = false := by decide
theorem test_wf_takes_smallest_bound : ({ kLen := 0, maxIn := some 258 } : BlockConfig).wf = true := by decide
theorem test_admissible_refuses_wide_op :
    admissible { kLen := 0, maxIn := none } { op := 256, operands := .noOperands } = false := by decide
theorem test_admissible_refuses_long_input :
    admissible { kLen := 0, maxIn := some 258 } { op := 0x13, operands := .data (List.replicate 259 0) } = false := by
  decide +kernel

/-! ### Written words decode (30_encoding.md rule R70, rule R71) -/

theorem test_decode_crcClr : decode { op := 0b00010000, operands := .noOperands } = .ok .crcClr := by decide
theorem test_decode_crcFeed : decode { op := 0b00010001, operands := .byte 0xFD } = .ok (.crcFeed 0xFD) := by decide
theorem test_decode_crcRead : decode { op := 0b00010010, operands := .noOperands } = .ok .crcRead := by decide
theorem test_decode_crcCalc :
    decode { op := 0b00010011, operands := .data [0xFD, 0x02] } = .ok (.crcCalc [0xFD, 0x02]) := by decide
theorem test_decode_frmPack :
    decode { op := 0b00100000, operands := .packet 33211 0x02 none } = .ok (.frmPack 0x0081BB 0x02 none) := by decide
theorem test_decode_frmUnpack :
    decode { op := 0b00100001, operands := .buffer [0x00, 0x0B] } = .ok (.frmUnpack [0x00, 0x0B]) := by decide
theorem test_decode_illegal : decode { op := 0x30, operands := .noOperands } = .error (.illegalOp 0x30) := by decide
theorem test_decode_wide_op : decode { op := 0x110, operands := .noOperands } = .error (.wideOp 0x110) := by decide

/-! ### The CRC-8 engine -/

/-- V-C14: the check value of rule R114. -/
theorem test_crc8_check_value : crc8 [0x31, 0x32, 0x33, 0x34, 0x35, 0x36, 0x37, 0x38, 0x39] = 0xA1 := by decide +kernel

/-- V-C12: the checksum of the source's response header. -/
theorem test_crc8_response_header : crc8 [0x00, 0x0B, 0x00, 0xBB, 0x81, 0x00] = 0xE6 := by decide +kernel

/-- The worked step of rule R100, round by round. -/
theorem test_crcRound_trace :
    (List.range 8).map (fun n => crcRounds (n + 1) 0xFD) = [0xF2, 0x79, 0xB0, 0x58, 0x2C, 0x16, 0x0B, 0x89] := by
  decide +kernel

/-- Rule R104's example: with `ACC = 0x5E`, `crc.clr` leaves 0x00. -/
theorem test_crcClr : accOf (exec .crcClr (small 0 0x5E [])) = some 0x00 := by decide

/-- Program 1, requests 3 and 10: 0x89 fed 0x02 is 0xAC, and 0x2D fed 0x2D is 0x00. -/
theorem test_crcFeed : accOf (exec (.crcFeed 0x02) (small 0 0x89 [])) = some 0xAC := by decide +kernel
theorem test_crcFeed_self : accOf (exec (.crcFeed 0x2D) (small 0 0x2D [])) = some 0x00 := by decide +kernel

/-- V-C20: `CRC.READ` directly after reset. -/
theorem test_crcRead : firstResponse (exec .crcRead State.reset) = some (.ok (.crc 0x00)) := by decide

/-- Program 4, request 6: `CRC.CALC` gives 0x78 while `ACC` holds 0x9B. -/
theorem test_crcCalc :
    firstResponse (exec (.crcCalc [0x01, 0x02]) (small 0 0x9B [])) = some (.ok (.crc 0x78)) := by decide +kernel
theorem test_crcCalc_keeps_acc : accOf (exec (.crcCalc [0x01, 0x02]) (small 0 0x9B [])) = some 0x9B := by decide

/-! ### The framer -/

/-- V-P7e under the three conventions: the length byte and the header checksum differ, the payload checksum does not. -/
theorem test_frmPack :
    [(0 : Fin 3), 1, 2].map (fun k => pack k 0xFFFFFF 0x0A (some [0xAA, 0x55])) =
      [.ok [0xFD, 0x0A, 0x02, 0xFF, 0xFF, 0xFF, 0xE4, 0xAA, 0x55, 0xED],
       .ok [0xFD, 0x0A, 0x03, 0xFF, 0xFF, 0xFF, 0x6B, 0xAA, 0x55, 0xED],
       .ok [0xFD, 0x0A, 0x04, 0xFF, 0xFF, 0xFF, 0xED, 0xAA, 0x55, 0xED]] := by decide +kernel

/-- V-P5: the serial number's byte order. -/
theorem test_frmPack_byte_order :
    firstResponse (exec (.frmPack 0x123456 0x02 none) (small 0 0 [])) =
      some (.ok (.frame [0xFD, 0x02, 0x00, 0x56, 0x34, 0x12, 0x26])) := by decide +kernel

/-- V-U2: a response with a payload, `K_LEN = 1`. -/
theorem test_frmUnpack :
    firstResponse (exec (.frmUnpack [0x00, 0x0A, 0x04, 0xBB, 0x81, 0x00, 0x25, 0xBB, 0x81, 0x00, 0x96]) (small 1 0 [])) =
      some (.ok (.unpacked { state := 0x00, command := 0x0A, length := 4, serno := 33211, payload := some [0xBB, 0x81, 0x00] })) := by
  decide +kernel

/-- V-U5, V-U6, V-U8, V-U9, V-U13 and a flipped length byte: one error each, in the order of rule R164. -/
theorem test_unpack_errors :
    [unpack 1 [0xFD, 0x02, 0x00, 0xBB, 0x81, 0x00, 0x2C],
     unpack 1 [0xFD, 0x02, 0x00, 0xBB, 0x81, 0x00, 0x2D, 0x00],
     unpack 1 [0xFD, 0x0A, 0x04, 0xBB, 0x81, 0x00, 0x1D, 0x01, 0x02, 0x03, 0xD9],
     unpack 1 [0xFD, 0x02, 0x01, 0xBB, 0x81, 0x00, 0xA2],
     unpack 0 [0xFD, 0x0A, 0x04, 0xBB, 0x81, 0x00, 0x1D, 0x01, 0x02, 0x03, 0xD8],
     unpack 1 [0xFD, 0x0A, 0x06, 0xBB, 0x81, 0x00, 0x1D, 0x01, 0x02, 0x03, 0xD8]] =
      [.error (.hcrc 0x2C), .error (.len 0 8), .error (.pcrc 0xD9), .error (.len 1 7), .error (.len 4 11),
       .error (.hcrc 0x1D)] := by decide +kernel

/-! ### Steps -/

/-- V-O1 and the interface: an illegal code is answered, a wide serial number is refused. -/
theorem test_step_illegal :
    firstResponse (step (small 0 0x11 [{ op := 0x00, operands := .noOperands }])) = some (.error (.illop 0x00)) := by decide
theorem test_step_wide_serno_refused :
    (match step (small 0 0 [{ op := 0x20, operands := .packet 16777216 2 none }]) with
      | .refused q => some q
      | .next _ => none
      | .fault _ => none) = some (.wideSerno 16777216) := by decide

/-- The first step after reset runs the table word (V-U3: an empty buffer is `E_TRUNC` with info 0). -/
theorem test_step_runs_table_word :
    firstResponse (step (State.reset.withFetchWord 8 0x21)) = some (.error (.trunc 0)) := by decide

/-! ### Assembler syntax (30_encoding.md rule R72, rule R73) -/

theorem test_assemble_pack :
    assemble "FRM.PACK serno=33211, cmd=0x0A, payload=[1, 0x02]" =
      some [{ op := 0x20, operands := .packet 33211 0x0A (some [1, 2]) }] := by decide +kernel
theorem test_assemble_feedn :
    assemble "crc.feedn [0xFD, 2]" =
      some [{ op := 0x11, operands := .byte 0xFD }, { op := 0x11, operands := .byte 2 }] := by decide +kernel
/-- Lines as the programs of 95_test_vectors.md write them; a lone `[10]` is rule R72's decimal ten. -/
theorem test_assemble_dump :
    assemble "frm.pack serno=33211, cmd=0x0A, payload=[01 02 03]" =
        some [{ op := 0x20, operands := .packet 33211 0x0A (some [1, 2, 3]) }] ∧
      assemble "frm.unpack [00 0B 00 BB 81 00 E6]" =
        some [{ op := 0x21, operands := .buffer [0x00, 0x0B, 0x00, 0xBB, 0x81, 0x00, 0xE6] }] ∧
      assemble "crc.calc [10]" = some [{ op := 0x13, operands := .data [10] }] ∧
      assemble "crc.calc [10 1]" = none := by decide +kernel
theorem test_render :
    (Response.ok (.crc 0x2D)).render = "OK crc=0x2D" ∧
      (Response.ok (.unpacked { state := 0, command := 11, length := 0, serno := 33211, payload := none })).render =
        "OK state=0x00 command=0x0B length=0 serno=33211 payload=none" ∧
      (Response.error (.len 0 8)).render = "E_LEN, info L=0, len=8" := by decide +kernel

/-! ### The host's duties (10_state.md rule R35, rule R37) -/

theorem test_host_duties :
    classifyRead [] = .timeout ∧ dutiful (.frmUnpack [0xFD]) = false ∧
      echoMatches (some 33211) (some 0x0B)
        { state := 0, command := 0x0A, length := 0, serno := 33211, payload := none } = false := by decide

/-- One reply passed in two parts, against the same reply passed whole (70_reset_and_hazards.md rule R196). -/
theorem test_whole_replies :
    passesWholeReplies [[1, 2, 3]] [.crcClr, .frmUnpack [1, 2], .frmUnpack [3]] = false ∧
      passesWholeReplies [[1, 2, 3]] [.crcClr, .frmUnpack [1, 2, 3], .crcRead] = true := by decide

/-! ### The hypotheses of the statements can be met -/

/-- The source's literal request, the frame of V-P7a for `K_LEN = 1`, and payloads on either side of the limit. -/
def requestFrame : Bytes := [0xFD, 0x02, 0x00, 0xBB, 0x81, 0x00, 0x2D]
def payloadFrame : Bytes := [0xFD, 0x0A, 0x04, 0xBB, 0x81, 0x00, 0x1D, 0x01, 0x02, 0x03, 0xD8]
def payload250 : Bytes := List.replicate 250 0x55
def payload251 : Bytes := List.replicate 251 0x55

theorem witness_InvariantHoldsAtReset : ({ kLen := 2, maxIn := some 258 } : BlockConfig).wf = true := by decide

theorem witness_StepKeepsInvariant :
    Inv (small 1 0 [encode (.frmUnpack [])]) ∧
      step (small 1 0 [encode (.frmUnpack [])]) = .next (answered (small 1 0 []) (.error (.trunc 0))) :=
  ⟨⟨rfl, by simp [small]⟩, rfl⟩

theorem witness_StepRunsTheDecodedInstruction :
    (∃ (s : State) (r : Request) (rest : List Request) (i : Instr), s.script = r :: rest ∧ decode r = .ok i ∧ withinBound s.cfg i = true) ∧
      ∃ s : State, s.script = [] :=
  ⟨⟨small 1 0 [encode (.crcFeed 7)], encode (.crcFeed 7), [], .crcFeed 7, rfl, by decide, rfl⟩, small 1 0 [], rfl⟩

theorem witness_FetchWordRunsTheTableInstruction : decodeTableWord 8 0x21 = some (.frmUnpack []) := by decide

theorem witness_StepTakesOneRequest :
    (∃ s t : State, step s = .next t ∧ s.script = []) ∧ ∃ s t : State, step s = .next t ∧ s.script ≠ [] :=
  ⟨⟨small 0 0 [], _, rfl, rfl⟩, small 0 0 [encode .crcRead], _, rfl, by simp [small]⟩

theorem witness_StepAnswersExactlyAdmissible :
    admissible { kLen := 0, maxIn := none } (encode .crcRead) = true ∧
      admissible { kLen := 0, maxIn := none } { op := 0xFF, operands := .noOperands } = true ∧
      admissible { kLen := 0, maxIn := none } { op := 0x11, operands := .byte 256 } = false ∧
      0x0F < 256 ∧ 0x22 < 256 ∧ legalOp 0x0F = false ∧ legalOp 0x14 = false ∧ legalOp 0x22 = false := by decide

theorem witness_WideOrLongOperandsAreRefused :
    (∃ s : State, s.script = [{ op := 0x20, operands := .packet 16777216 2 none }] ∧ 16777215 < 16777216) ∧
      (∃ s : State, s.script = [{ op := 0x20, operands := .packet 16777215 256 none }] ∧ 16777215 ≤ 16777215 ∧ 255 < 256) ∧
      (∃ s : State, s.script = [{ op := 0x11, operands := .byte 256 }] ∧ 255 < 256) ∧
      (∃ s : State, s.script = [{ op := 0x13, operands := .data (([0xFF] : Bytes).map BitVec.toNat ++ 256 :: [999]) }] ∧ 255 < 256) ∧
      (∃ s : State, s.script = [{ op := 0x21, operands := .buffer (([0xFF] : Bytes).map BitVec.toNat ++ 256 :: []) }] ∧ 255 < 256) ∧
      (∃ s : State, s.script =
          [{ op := 0x20, operands := .packet 16777215 255 (some (([] : Bytes).map BitVec.toNat ++ 256 :: [])) }] ∧
        16777215 ≤ 16777215 ∧ 255 ≤ 255 ∧ 255 < 256) ∧
      (∃ s : State, s.script = [{ op := 256, operands := .noOperands }] ∧ 255 < 256) ∧
      ∃ (s : State) (i : Instr) (bound : Nat) (rest : List Request),
        s.script = encode i :: rest ∧ s.cfg.maxIn = some bound ∧ bound < inputLength i :=
  ⟨⟨small 0 0 [{ op := 0x20, operands := .packet 16777216 2 none }], rfl, by decide⟩,
    ⟨small 0 0 [{ op := 0x20, operands := .packet 16777215 256 none }], rfl, by decide, by decide⟩,
    ⟨small 0 0 [{ op := 0x11, operands := .byte 256 }], rfl, by decide⟩,
    ⟨small 0 0 [{ op := 0x13, operands := .data [255, 256, 999] }], rfl, by decide⟩,
    ⟨small 0 0 [{ op := 0x21, operands := .buffer [255, 256] }], rfl, by decide⟩,
    ⟨small 0 0 [{ op := 0x20, operands := .packet 16777215 255 (some [256]) }], rfl, by decide⟩,
    ⟨small 0 0 [{ op := 256, operands := .noOperands }], rfl, by decide⟩,
    { small 0 0 [encode (.crcCalc (List.replicate 259 0))] with cfg := { kLen := 0, maxIn := some 258 } },
    .crcCalc (List.replicate 259 0), 258, [], rfl, rfl, by decide +kernel⟩

theorem witness_SafeRunAnswersEveryRequest :
    Safe (small 0 0 [encode .crcClr, { op := 0x22, operands := .byte 999 }]) := by
  intro r hr
  simp only [small, List.mem_cons, List.not_mem_nil, or_false] at hr
  rcases hr with rfl | rfl <;> decide

theorem witness_EncodeOfDecodeIsTheRequest :
    decode { op := 0x20, operands := .packet 16777215 255 (some []) } = .ok (.frmPack 0xFFFFFF 0xFF (some [])) := by decide

theorem witness_IllegalCodes :
    (∀ op ∈ [0x00, 0x0F, 0x14, 0x1F, 0x22, 0xFF],
      (op ≤ 0x0F ∨ (0x14 ≤ op ∧ op ≤ 0x1F) ∨ (0x22 ≤ op ∧ op ≤ 0xFF)) ∧
        Operands.widthsFit (.byte 255) = true ∧ inputFits (small 0 0 []).cfg { op := op, operands := .byte 255 } = true ∧
        (small 0 0 [{ op := op, operands := .byte 255 }]).script = { op := op, operands := .byte 255 } :: []) ∧
      ∀ op ∈ [0x10, 0x13, 0x20, 0x21], ¬(op ≤ 0x0F ∨ (0x14 ≤ op ∧ op ≤ 0x1F) ∨ (0x22 ≤ op ∧ op ≤ 0xFF)) := by decide

theorem witness_ClrSetsAccumulatorToSeed :
    exec .crcClr (small 0 0x5E []) = .next (answered (small 0 0x00 []) (.ok .noResults)) := rfl

theorem witness_ReadReturnsAccumulator :
    exec .crcRead (small 0 0x5E []) = .next (answered (small 0 0x5E []) (.ok (.crc 0x5E))) ∧
      (small 0 0x2D []).acc = [0xFD, 0x02, 0x00, 0xBB, 0x81, 0x00].foldl crc8Step 0x00 :=
  ⟨rfl, by decide +kernel⟩

theorem witness_ChecksumIsLinear : ([0x01, 0x02] : Bytes).length = ([0xF0, 0xFF] : Bytes).length := rfl

theorem witness_SingleBitErrors : 0 < 8 * ([0x01] : Bytes).length ∧ 7 < 8 * ([0x01] : Bytes).length := by decide

theorem witness_BytesCommute :
    ((0x00 : Byte) ^^^ 0xF7 = 0xF7 ∧ crc8 [0x00, 0xF7] = crc8 [0xF7, 0x00]) ∧ crc8 [0x01, 0x02] ≠ crc8 [0x02, 0x01] := by
  decide +kernel

theorem witness_AccumulatorAgrees :
    ∃ (s : State) (is : List Instr), (∀ i ∈ is, i ≠ Instr.crcClr ∧ withinBound s.cfg i = true) ∧
      s.script = encode .crcClr :: (is.map encode ++ [encode .crcRead]) :=
  ⟨small 0 0x5E [encode .crcClr, encode (.crcFeed 1), encode (.crcCalc [9]), encode (.crcFeed 2), encode .crcRead],
    [.crcFeed 1, .crcCalc [9], .crcFeed 2], by decide, rfl⟩

theorem witness_Pack_at_the_limit :
    ((some payload250).getD []).length ≤ 250 ∧ 250 < ((some payload251).getD []).length ∧ 250 < payload251.length := by
  decide +kernel

theorem witness_packed_frames :
    pack 1 33211 0x02 none = .ok requestFrame ∧ 55 < 8 * requestFrame.length ∧
      pack 1 33211 0x0A (some [0x01, 0x02, 0x03]) = .ok payloadFrame ∧ 55 < 8 * payloadFrame.length ∧
      56 < 8 * payloadFrame.length ∧ 87 < 8 * payloadFrame.length ∧ ([0x01, 0x02, 0x03] : Bytes) ≠ [] := by decide +kernel

theorem witness_EveryPackedFrameIsWithinTheBound :
    ({ kLen := 1, maxIn := some 258 } : BlockConfig).wf = true ∧ pack 1 33211 0x02 none = .ok requestFrame := by
  decide +kernel

theorem witness_UnpackOfShortBuffer : (requestFrame.take 6).length < 7 ∧ ([] : Bytes).length < 7 := by decide

theorem witness_UnpackChecksTheHeaderChecksumFirst :
    (requestFrame.take 6).length = 6 ∧ (0x2C : Byte) ≠ crc8 (requestFrame.take 6) ∧ 0 < 56 ∧ 55 < 56 := by
  decide +kernel

/-- Each way a length can be wrong, at its boundary: `L = 0` with a byte more, `L = K_LEN`, `L = 251 + K_LEN`, and a payload
one byte short. -/
theorem witness_UnpackRefusesAWrongLength :
    (∀ l : Byte, ([0xFD, 0x02, l, 0xBB, 0x81, 0x00] : Bytes).length = 6 ∧
      ([0xFD, 0x02, l, 0xBB, 0x81, 0x00] : Bytes)[2]? = some l) ∧
      ((0x00 : Byte).toNat = 0 ∧ ([0x00] : Bytes) ≠ []) ∧
      (1 ≤ (0x02 : Byte).toNat ∧ (0x02 : Byte).toNat ≤ (small 2 0 []).cfg.kLen.val) ∧
      250 + (small 1 0 []).cfg.kLen.val < (0xFC : Byte).toNat ∧
      ((small 1 0 []).cfg.kLen.val < (0x02 : Byte).toNat ∧ (0x02 : Byte).toNat ≤ 250 + (small 1 0 []).cfg.kLen.val ∧
        ([0x00] : Bytes).length ≠ (0x02 : Byte).toNat - (small 1 0 []).cfg.kLen.val + 1) :=
  ⟨fun _ => ⟨rfl, rfl⟩, by decide, by decide, by decide, by decide⟩

theorem witness_UnpackChecksThePayloadChecksum :
    ([0xFD, 0x0A, 0x04, 0xBB, 0x81, 0x00] : Bytes).length = 6 ∧
      ([0xFD, 0x0A, 0x04, 0xBB, 0x81, 0x00] : Bytes)[2]? = some 0x04 ∧ 1 ≤ ([0x01, 0x02, 0x03] : Bytes).length ∧
      ([0x01, 0x02, 0x03] : Bytes).length ≤ 250 ∧
      (0x04 : Byte).toNat = ([0x01, 0x02, 0x03] : Bytes).length + (small 1 0 []).cfg.kLen.val ∧
      (0xD9 : Byte) ≠ crc8 ([0xFD, 0x0A, 0x04, 0xBB, 0x81, 0x00] ++
        crc8 [0xFD, 0x0A, 0x04, 0xBB, 0x81, 0x00] :: [0x01, 0x02, 0x03]) := by
  decide +kernel

theorem witness_frames_up_to_the_limit : ([] : Bytes).length ≤ 250 ∧ payload250.length ≤ 250 := by decide +kernel

theorem witness_OtherLengthConvention :
    (0 : Fin 3) ≠ (small 1 0 []).cfg.kLen ∧ 1 ≤ payload250.length ∧ payload250.length ≤ 250 := by decide +kernel

theorem witness_CutOrPaddedFrames :
    ([0x01] : Bytes).length ≤ 250 ∧ 6 < 7 ∧ 7 ≤ 7 ∧ 7 < (frameOf 1 0x00 0x0B 33211 [0x01]).length ∧
      8 < (frameOf 1 0x00 0x0B 33211 [0x01]).length ∧ ([0x00] : Bytes) ≠ [] := by decide

theorem witness_SecondPart :
    ([] : Bytes).length ≤ 250 ∧ 0 < 1 ∧ 1 < (frameOf 1 0x00 0x0B 33211 []).length := by decide

/-- Second parts of a split frame, shorter than seven bytes and not, and a reply behind one stray byte and behind seven zero
bytes, which pass for a header. -/
theorem witness_EachBufferIsAnsweredAlone :
    (payloadFrame.drop 5).length < 7 ∧ 7 ≤ (payloadFrame.drop 4).length ∧
      byteAt (payloadFrame.drop 4) 6 ≠ crc8 ((payloadFrame.drop 4).take 6) ∧
      byteAt ([0x00] ++ requestFrame) 6 ≠ crc8 (([0x00] ++ requestFrame).take 6) ∧
      byteAt (List.replicate 7 0x00 ++ requestFrame) 6 = crc8 ((List.replicate 7 0x00 ++ requestFrame).take 6) ∧
      expectedLen 1 (byteAt (List.replicate 7 0x00 ++ requestFrame) 2) ≠
        some (List.replicate 7 0x00 ++ requestFrame).length := by decide +kernel

theorem witness_StrayBytesBeforeAReply :
    ([] : Bytes).length ≤ 250 ∧ ([0x00] : Bytes) ≠ [] ∧
      unpack 1 ([0x00] ++ frameOf 1 0xFD 0x02 33211 []) = .error (.hcrc 0x00) := by decide +kernel

theorem witness_TailsThatAreFrames :
    frameOf 1 0xFD 0x00 0 ((frameOf 1 0xFD 0x00 0 []).take 6) =
        [0xFD, 0x00, 0x07, 0x00, 0x00, 0x00, crc8 [0xFD, 0x00, 0x07, 0x00, 0x00, 0x00],
          0xFD, 0x00, 0x00, 0x00, 0x00, 0x00, 0x38] ∧
      (small 1 0 []).cfg.kLen = 1 := by decide +kernel

theorem witness_AnyOtherBuffer :
    ¬∃ (state cmd : Byte) (serno : Serno) (p : Bytes),
      p.length ≤ 250 ∧ ([] : Bytes) = frameOf (small 1 0 []).cfg.kLen state cmd serno p := by
  rintro ⟨state, cmd, serno, p, -, h⟩
  cases p <;> simp [frameOf, headerOf] at h

theorem witness_ResponsesDependOnOperandsAlone :
    (Instr.crcCalc [] ≠ .crcRead ∧ (small 1 0x00 []).cfg.kLen = (small 1 0x5E []).cfg.kLen ∧
      (∃ t, exec (.crcCalc []) (small 1 0x00 []) = .next t) ∧ ∃ t, exec (.crcCalc []) (small 1 0x5E []) = .next t) ∧
      (∀ v c p, Instr.crcRead ≠ .frmPack v c p) ∧ (∀ b, Instr.crcRead ≠ .frmUnpack b) ∧
      (small 1 0x5E []).acc = (small 2 0x5E []).acc ∧
      (∃ t, exec .crcRead (small 1 0x5E []) = .next t) ∧ ∃ t, exec .crcRead (small 2 0x5E []) = .next t :=
  ⟨⟨by simp, rfl, ⟨_, rfl⟩, _, rfl⟩, by simp, by simp, rfl, ⟨_, rfl⟩, _, rfl⟩

theorem witness_ErrorsLeaveNoTrace :
    (∃ t u, step (small 1 0x5E [encode (.frmUnpack []), encode (.crcFeed 1)]) = .next t ∧
      t.responses = (small 1 0x5E []).responses ++ [.error (.trunc 0)] ∧
      step (small 1 0x5E [encode (.crcFeed 1)]) = .next u) ∧
      ∃ q, step (small 1 0x5E [{ op := 0x11, operands := .byte 256 }]) = .refused q :=
  ⟨⟨_, _, rfl, rfl, rfl⟩, _, rfl⟩

theorem witness_FeednExpandsToFeedsInOrder :
    parseLine [.word (Op.mnemonic .crcRead)] = some [encode .crcRead] ∧
      ([.word (Op.mnemonic .crcRead)] : List Token).head? ≠ some (.word feednWord) := by decide

theorem witness_ReadingOperationsAreIdempotent :
    (Instr.frmUnpack [] ≠ .crcClr ∧ ∀ b, Instr.frmUnpack [] ≠ .crcFeed b) ∧
      ∃ t u, exec (.frmUnpack []) (small 1 0 []) = .next t ∧ exec (.frmUnpack []) t = .next u :=
  ⟨by simp, _, _, rfl, rfl⟩

end Sys2Proof.Tests
end

/-! The invariant: every response of a step is one the spec allows (10_state.md rule R30, 41_framer.md rule R136). -/

namespace Sys2Proof.Machine

open Sys2Proof

/-! ### The length byte and the length it declares -/

theorem lengthByte_toNat (k : Fin 3) {n : Nat} (h1 : 1 ≤ n) (h2 : n ≤ 250) : (lengthByte k n).toNat = n + k.val := by
  have hk := k.isLt
  rw [lengthByte, if_neg (by omega), BitVec.toNat_ofNat, Nat.mod_eq_of_lt (by omega)]

/-- A receiver works out the length of the frame from the length byte of `n` payload bytes. -/
theorem expectedLen_lengthByte (k : Fin 3) {n : Nat} (h : n ≤ 250) :
    expectedLen k (lengthByte k n) = some (if n = 0 then 7 else 8 + n) := by
  by_cases h0 : n = 0
  · simp [h0, lengthByte, expectedLen]
  · have hl := lengthByte_toNat k (Nat.one_le_iff_ne_zero.mpr h0) h
    have hne : lengthByte k n ≠ 0 := by
      intro hz
      rw [hz] at hl
      have hz0 : (0 : Byte).toNat = 0 := rfl
      omega
    rw [expectedLen, if_neg hne, if_pos (by omega), if_neg h0, hl, Nat.add_sub_cancel]

/-- A declared length is 7 with the length byte 0, or 9 to 258 with a length byte that counts the payload. -/
theorem expectedLen_eq_some {k : Fin 3} {l : Byte} {n : Nat} (h : expectedLen k l = some n) :
    (l = 0 ∧ n = 7) ∨ ∃ m, 1 ≤ m ∧ m ≤ 250 ∧ l.toNat = m + k.val ∧ n = 8 + m := by
  unfold expectedLen at h
  split at h
  case isTrue h0 =>
    cases h
    exact .inl ⟨h0, rfl⟩
  case isFalse h0 =>
    split at h
    case isTrue hl =>
      cases h
      exact .inr ⟨l.toNat - k.val, by omega, by omega, by omega, rfl⟩
    case isFalse hl => cases h

/-! ### The shape of a packed frame -/

theorem buildFrame_length (k : Fin 3) (state cmd : Byte) (serno : Serno) (p : Bytes) :
    (buildFrame k state cmd serno p).length = if p.length = 0 then 7 else 8 + p.length := by
  rw [buildFrame]
  split
  · rw [withCrc_length, header_length]
  · rw [withCrc_length, List.length_append, withCrc_length, header_length]
    omega

theorem byteAt_buildFrame_zero (k : Fin 3) (state cmd : Byte) (serno : Serno) (p : Bytes) :
    byteAt (buildFrame k state cmd serno p) 0 = state := by
  rw [buildFrame]
  split <;> rfl

theorem byteAt_buildFrame_two (k : Fin 3) (state cmd : Byte) (serno : Serno) (p : Bytes) :
    byteAt (buildFrame k state cmd serno p) 2 = lengthByte k p.length := by
  rw [buildFrame]
  split <;> rfl

/-- A request frame with at most 250 payload bytes has the sizes, the marker and the length byte of rule R10 and rule R124. -/
theorem frameShape_buildFrame (k : Fin 3) (cmd : Byte) (serno : Serno) {p : Bytes} (h : p.length ≤ 250) :
    frameShape k (buildFrame k reqMarker cmd serno p) = true := by
  have hsize : (buildFrame k reqMarker cmd serno p).length = 7 ∨
      9 ≤ (buildFrame k reqMarker cmd serno p).length ∧ (buildFrame k reqMarker cmd serno p).length ≤ 258 := by
    rw [buildFrame_length]
    split <;> omega
  have hdeclared : expectedLen k (byteAt (buildFrame k reqMarker cmd serno p) 2) =
      some (buildFrame k reqMarker cmd serno p).length := by
    rw [byteAt_buildFrame_two, expectedLen_lengthByte k h, buildFrame_length]
  simpa [frameShape, byteAt_buildFrame_zero, hdeclared] using hsize

/-! ### Every response is legal -/

/-- The response of `FRM.PACK`: a frame of the right shape, or `E_OVERSIZE` above 250 payload bytes. -/
theorem responseOf_frmPack_legal (k : Fin 3) (acc : Byte) (serno : Serno) (cmd : Byte) (payload : Option Bytes) :
    (responseOf k acc (.frmPack serno cmd payload)).legal k = true := by
  by_cases h : (payload.getD []).length ≤ 250
  · simpa [responseOf, pack_of_le h, Response.legal] using frameShape_buildFrame k cmd serno h
  · have hgt : 250 < (payload.getD []).length := by omega
    simpa [responseOf, pack_of_gt hgt, Response.legal] using hgt

/-- A buffer of the declared length with a good header checksum gives a record of the right shape, or fails its payload
checksum. -/
theorem unpack_of_declared_len (k : Fin 3) {buf : Bytes} (h7 : 7 ≤ buf.length) (hc : byteAt buf 6 = crc8 (buf.take 6))
    (hl : expectedLen k (byteAt buf 2) = some buf.length) :
    (∃ u, unpack k buf = .ok u ∧ recordShape k u = true) ∨ ∃ b, unpack k buf = .error (.pcrc b) := by
  obtain hs | ⟨a0, a1, a2, a3, a4, a5, c, rest, rfl⟩ := short_or_seven buf
  · omega
  have hc' : c = crc8 [a0, a1, a2, a3, a4, a5] := hc
  have hl' : expectedLen k a2 = some (rest.length + 7) := hl
  obtain ⟨h0, hn⟩ | ⟨m, h1, h250, hm, hn⟩ := expectedLen_eq_some hl'
  · have hrest : rest = [] := List.length_eq_zero_iff.mp (by omega)
    rw [unpack_of_zero (h := hc') (h0 := h0), if_pos hrest]
    exact .inl ⟨_, rfl, by simp [recordShape, h0]⟩
  · obtain ⟨p, e, rfl⟩ : ∃ p e, rest = p ++ [e] :=
      ⟨_, _, (List.dropLast_append_getLast (List.ne_nil_of_length_pos (by omega))).symm⟩
    obtain rfl : m = p.length := by
      rw [List.length_append, List.length_singleton] at hn
      omega
    rw [unpack_of_payload (h := hc') (hp := ⟨h1, h250⟩) (hl := hm)]
    split
    · exact .inl ⟨_, rfl, by simp [recordShape, hm, h250]; omega⟩
    · exact .inr ⟨e, rfl⟩

/-- The response of `FRM.UNPACK`, along the checks of rule R130. -/
theorem responseOf_frmUnpack_legal (k : Fin 3) (acc : Byte) (buf : Bytes) :
    (responseOf k acc (.frmUnpack buf)).legal k = true := by
  by_cases h7 : buf.length < 7
  · simpa [responseOf, unpack_of_short k h7, Response.legal] using h7
  have hge : 7 ≤ buf.length := by omega
  by_cases hc : byteAt buf 6 = crc8 (buf.take 6)
  · by_cases hl : expectedLen k (byteAt buf 2) = some buf.length
    · obtain ⟨u, hu, hshape⟩ | ⟨b, hb⟩ := unpack_of_declared_len k hge hc hl
      · simpa [responseOf, hu, Response.legal] using hshape
      · simp [responseOf, hb, Response.legal]
    · simp [responseOf, unpack_of_wrong_len k hge hc hl, Response.legal, hge, hl]
  · simp [responseOf, unpack_of_wrong_hcrc k hge hc, Response.legal]

theorem responseOf_legal (k : Fin 3) (acc : Byte) (i : Instr) : (responseOf k acc i).legal k = true := by
  cases i with
  | crcClr | crcFeed | crcRead | crcCalc => rfl
  | frmPack serno cmd payload => exact responseOf_frmPack_legal k acc serno cmd payload
  | frmUnpack buf => exact responseOf_frmUnpack_legal k acc buf

/-- A record decodes to an illegal operation only by a code outside the table (30_encoding.md rule R71). -/
theorem not_legalOp_of_decode {r : Request} {op : Byte} (h : decode r = .error (.illegalOp op)) :
    legalOp op.toNat = false := by
  unfold decode at h
  split at h
  case isFalse => cases h
  case isTrue hn =>
    split at h
    case h_1 hd =>
      cases h
      rw [BitVec.toNat_ofNat, Nat.mod_eq_of_lt hn, ← decodeOp_isSome hn, hd, Option.isSome_none]
    case h_2 => exact absurd h (decodeOperands_ne_illegalOp _ _ _)

/-! ### The invariant is kept -/

/-- The invariant reads the configuration and the responses, and neither `ACC` nor the script. -/
theorem Inv.congr {s t : State} (h : Inv s) (hcfg : t.cfg = s.cfg) (hresp : t.responses = s.responses) : Inv t := by
  rwa [Inv, hcfg, hresp]

theorem Inv.respond {s : State} (h : Inv s) {r : Response} (hr : r.legal s.cfg.kLen = true) : Inv (s.respond r) := by
  obtain ⟨hwf, hall⟩ := h
  refine ⟨hwf, fun q hq => ?_⟩
  obtain hq | hq := List.mem_append.mp hq
  · exact hall q hq
  · rwa [List.mem_singleton.mp hq]

theorem exec_keeps_inv {i : Instr} {s t : State} (hs : Inv s) (h : exec i s = .next t) : Inv t := by
  rw [exec_eq] at h
  cases h
  exact (hs.congr (s.setAcc_cfg _) (s.setAcc_responses _)).respond (responseOf_legal _ _ i)

theorem issue_keeps_inv {r : Request} {s t : State} (hs : Inv s) (h : issue r s = .next t) : Inv t := by
  obtain ⟨i, -, -, hexec⟩ | ⟨op, hd, rfl⟩ := issue_cases h
  · exact exec_keeps_inv hs hexec
  · exact hs.respond (by simp [Response.legal, not_legalOp_of_decode hd])

/-- Settles O3: an idle step changes nothing, and an answered request adds one legal response. -/
theorem stepKeepsInvariant : Obligations.StepKeepsInvariant := by
  intro s t hs h
  obtain ⟨-, rfl⟩ | ⟨r, rest, -, hissue⟩ := step_cases h
  · exact hs
  · exact issue_keeps_inv (s := { s with script := rest }) (hs.congr rfl rfl) hissue

end Sys2Proof.Machine

/-! The checksum as a remainder over GF(2) (00_scope.md rule R9, 40_crc8.md rule R100): a round is the multiplication by x
modulo the generator, in the reflected form. -/

namespace Sys2Proof.Machine

open Sys2Proof Sys2Proof.Spec Polynomial

/-! ### The polynomial of a byte -/

/-- A bit's monomial over GF(2) is additive in the bit. -/
theorem ite_xor_eq_add (a b : Bool) (p : (ZMod 2)[X]) :
    (if a ^^ b then p else 0) = (if a then p else 0) + (if b then p else 0) := by
  cases a <;> cases b <;> simp [CharTwo.add_self_eq_zero]

theorem checksumPoly_xor (x y : Byte) : checksumPoly (x ^^^ y) = checksumPoly x + checksumPoly y := by
  simp only [checksumPoly, BitVec.getLsbD_xor, ite_xor_eq_add, List.sum_map_add]

/-- `CRC_POLY` in its reflected form is the generator without its leading term. -/
theorem generator_eq : generator = X ^ 8 + checksumPoly crcPoly := by
  simp [generator, checksumPoly, crcPoly, List.range_succ, add_assoc]

theorem checksumPoly_eq_sum (c : Byte) :
    checksumPoly c = ∑ j ∈ Finset.range 8, if c.getLsbD j then X ^ (7 - j) else 0 := rfl

/-- A shift to the right multiplies by x; bit 0 leaves the byte as x⁸. -/
theorem X_mul_checksumPoly (r : Byte) :
    X * checksumPoly r = checksumPoly (r >>> 1) + if r.getLsbD 0 then X ^ 8 else 0 :=
  calc X * checksumPoly r
    _ = ∑ j ∈ Finset.range 8, if r.getLsbD j then X ^ (8 - j) else 0 := by
      rw [checksumPoly_eq_sum, Finset.mul_sum]
      refine Finset.sum_congr rfl fun j hj => ?_
      have hexp : 7 - j + 1 = 8 - j := by
        rw [Finset.mem_range] at hj
        omega
      rw [mul_ite, mul_zero, ← pow_succ', hexp]
    _ = (∑ j ∈ Finset.range 7, if r.getLsbD (1 + j) then X ^ (7 - j) else 0) + if r.getLsbD 0 then X ^ 8 else 0 := by
      simp only [Finset.sum_range_succ' _ 7, Nat.reduceSubDiff, Nat.sub_zero, Nat.add_comm 1]
    _ = checksumPoly (r >>> 1) + if r.getLsbD 0 then X ^ 8 else 0 := by
      have htop : r.getLsbD (1 + 7) = false := r.getLsbD_of_ge 8 (le_refl 8)
      simp only [checksumPoly_eq_sum, BitVec.getLsbD_ushiftRight, Finset.sum_range_succ _ 7, htop, Bool.false_eq_true,
        if_false, add_zero]

theorem checksumPoly_degree_lt (c : Byte) : (checksumPoly c).degree < 8 := by
  rw [checksumPoly_eq_sum]
  refine mem_degreeLT.mp (Submodule.sum_mem _ fun j _ => ?_)
  split
  · exact mem_degreeLT.mpr ((degree_X_pow_le _).trans_lt (by norm_cast; omega))
  · exact Submodule.zero_mem _

theorem generator_monic : generator.Monic := by
  rw [generator_eq]
  exact monic_X_pow_add (checksumPoly_degree_lt crcPoly)

theorem generator_degree : generator.degree = 8 := by
  rw [generator_eq, degree_add_eq_left_of_degree_lt, degree_X_pow]
  · rfl
  · rw [degree_X_pow]
    exact checksumPoly_degree_lt crcPoly

/-! ### Rounds multiply by x modulo the generator -/

theorem generator_dvd_crcRound (r : Byte) : generator ∣ X * checksumPoly r - checksumPoly (crcRound r) := by
  rw [X_mul_checksumPoly, crcRound]
  split
  · rw [checksumPoly_xor, add_sub_add_left_eq_sub, CharTwo.sub_eq_add, ← generator_eq]
  · simp

theorem generator_dvd_crcRounds (n : ℕ) (r : Byte) :
    generator ∣ X ^ n * checksumPoly r - checksumPoly (crcRounds n r) := by
  induction n generalizing r with
  | zero => simp [crcRounds]
  | succ n ih =>
    have hsplit : X ^ (n + 1) * checksumPoly r - checksumPoly (crcRounds (n + 1) r) =
        X ^ n * (X * checksumPoly r - checksumPoly (crcRound r)) +
          (X ^ n * checksumPoly (crcRound r) - checksumPoly (crcRounds n (crcRound r))) := by
      rw [crcRounds]
      ring
    rw [hsplit]
    exact dvd_add ((generator_dvd_crcRound r).mul_left _) (ih _)

/-! ### The message -/

/-- One byte more shifts the message by eight powers. -/
theorem messagePoly_append_singleton (s : Bytes) (b : Byte) :
    messagePoly (s ++ [b]) = messagePoly s * X ^ 8 + checksumPoly b := by
  have hbit (c : Bool) (n : ℕ) :
      (if c then X ^ n else 0 : (ZMod 2)[X]) = (if c then 1 else 0) * X ^ n := by
    rw [ite_mul, one_mul, zero_mul]
  have hbits : messageBits (s ++ [b]) = messageBits s ++ (List.range 8).map b.getLsbD := by
    simp [messageBits]
  rw [messagePoly, hbits, List.foldl_append, ← messagePoly]
  simp only [checksumPoly, hbit, List.range_succ, List.range_zero, List.map_cons, List.map_nil,
    List.nil_append, List.cons_append, List.foldl_cons, List.foldl_nil, List.sum_cons, List.sum_nil]
  ring

theorem generator_dvd_message_sub_crc8 (s : Bytes) : generator ∣ messagePoly s * X ^ 8 - checksumPoly (crc8 s) := by
  induction s using List.reverseRecOn with
  | nil => simp [messagePoly, messageBits, checksumPoly]
  | append_singleton s b ih =>
    have hsplit : messagePoly (s ++ [b]) * X ^ 8 - checksumPoly (crc8 (s ++ [b])) =
        (messagePoly s * X ^ 8 - checksumPoly (crc8 s)) * X ^ 8 +
          (X ^ 8 * checksumPoly (crc8 s ^^^ b) - checksumPoly (crcRounds 8 (crc8 s ^^^ b))) := by
      rw [messagePoly_append_singleton, crc8_append_singleton, crc8Step, checksumPoly_xor]
      ring
    rw [hsplit]
    exact dvd_add (ih.mul_right _) (generator_dvd_crcRounds 8 _)

/-- Settles O26: the message times x⁸ is congruent to the checksum, whose degree is below the generator's. -/
theorem checksumIsThePolynomialRemainder : Obligations.ChecksumIsThePolynomialRemainder := by
  intro s
  rw [modByMonic_eq_of_dvd_sub generator_monic (generator_dvd_message_sub_crc8 s),
    (modByMonic_eq_self_iff generator_monic).mpr]
  rw [generator_degree]
  exact checksumPoly_degree_lt _

end Sys2Proof.Machine

/-! The decoder against the well-formedness check (10_state.md rule R29, 30_encoding.md rules R70 and R71): a record is too
wide, of an illegal code, or the record of one of the six operations, and then it decodes exactly when it is well formed. -/

namespace Sys2Proof

/-! ### The three kinds of record -/

theorem exists_code_of_legalOp {n : Nat} (h : legalOp n = true) : ∃ op : Op, n = op.code.toNat := by
  have hn : n < 256 := by
    simp only [legalOp, Bool.or_eq_true, Bool.and_eq_true, decide_eq_true_eq, beq_iff_eq] at h
    omega
  rw [← decodeOp_isSome hn] at h
  obtain ⟨op, hop⟩ := Option.isSome_iff_exists.mp h
  exact ⟨op, decodeOp_eq_some hn hop⟩

theorem Request.wide_or_illegal_or_code (r : Request) :
    256 ≤ r.op ∨ (r.op < 256 ∧ legalOp r.op = false) ∨ ∃ op : Op, r = { op := op.code.toNat, operands := r.operands } := by
  by_cases hn : r.op < 256
  · cases hl : legalOp r.op with
    | false => exact .inr (.inl ⟨hn, rfl⟩)
    | true =>
      obtain ⟨op, hop⟩ := exists_code_of_legalOp hl
      exact .inr (.inr ⟨op, by rw [← hop]⟩)
  · exact .inl (Nat.not_lt.mp hn)

theorem fitsByte_of_legalOp {n : Nat} (h : legalOp n = true) : fitsByte n = true := by
  obtain ⟨op, rfl⟩ := exists_code_of_legalOp h
  exact Laws.fitsByte_toNat op.code

/-- The code alone makes a record an illegal operation. -/
theorem decode_eq_illegalOp {r : Request} {c : Byte} (h : decode r = .error (.illegalOp c)) :
    r.op < 256 ∧ legalOp r.op = false := by
  obtain hw | hill | ⟨op, hop⟩ := r.wide_or_illegal_or_code
  · rw [decode_of_wide hw] at h
    cases h
  · exact hill
  · rw [hop, decode_code] at h
    exact absurd h (decodeOperands_ne_illegalOp op _ c)

/-! ### A record that decodes is the record of its instruction -/

/-- The inversion of `Except.map`, as the decoder uses it. -/
theorem exists_of_map_eq_ok {ε α β : Type} {x : Except ε α} {f : α → β} {b : β} (h : x.map f = .ok b) :
    ∃ a, x = .ok a ∧ f a = b := by
  cases x with
  | error e => cases h
  | ok a => exact ⟨a, rfl, Except.ok.inj h⟩

theorem encode_of_decodeOperands {op : Op} {o : Operands} {i : Instr} (h : decodeOperands op o = .ok i) :
    encode i = { op := op.code.toNat, operands := o } := by
  unfold decodeOperands at h
  split at h
  · cases h
    rfl
  · obtain ⟨b, hb, rfl⟩ := exists_of_map_eq_ok h
    rw [toByte_ok hb]
    rfl
  · cases h
    rfl
  · obtain ⟨d, hd, rfl⟩ := exists_of_map_eq_ok h
    rw [toBytes_ok hd]
    rfl
  · split at h
    · next hv hc hp =>
      cases h
      rw [toSerno_ok hv, toByte_ok hc, toPayload_ok hp]
      rfl
    all_goals cases h
  · obtain ⟨b, hb, rfl⟩ := exists_of_map_eq_ok h
    rw [toBytes_ok hb]
    rfl
  · cases h

theorem encode_of_decode {r : Request} {i : Instr} (h : decode r = .ok i) : encode i = r := by
  obtain hw | ⟨hn, hl⟩ | ⟨op, hop⟩ := r.wide_or_illegal_or_code
  · rw [decode_of_wide hw] at h
    cases h
  · rw [decode_illegal hn hl] at h
    cases h
  · rw [hop, decode_code] at h
    rw [hop, encode_of_decodeOperands h]

/-- The code an operation's record carries names it, and its operands are taken as they are. -/
theorem decode_encode (i : Instr) : decode (encode i) = .ok i := by
  cases i with
  | crcClr => exact decode_code .crcClr _
  | crcFeed b =>
    refine (decode_code .crcFeed _).trans ?_
    simp [decodeOperands, Except.map]
  | crcRead => exact decode_code .crcRead _
  | crcCalc d =>
    refine (decode_code .crcCalc _).trans ?_
    simp [decodeOperands, Except.map]
  | frmPack v c p =>
    refine (decode_code .frmPack _).trans ?_
    simp [decodeOperands]
  | frmUnpack b =>
    refine (decode_code .frmUnpack _).trans ?_
    simp [decodeOperands, Except.map]

/-! ### A well-formed record decodes -/

theorem encode_wf (i : Instr) : (encode i).wf = true := by
  cases i with
  | crcClr => exact Laws.EncodeFits.crcClr
  | crcFeed b => exact Laws.EncodeFits.crcFeed b
  | crcRead => exact Laws.EncodeFits.crcRead
  | crcCalc d => exact Laws.EncodeFits.crcCalc d
  | frmPack v c p => exact Laws.EncodeFits.frmPack v c p
  | frmUnpack b => exact Laws.EncodeFits.frmUnpack b

theorem toPayload_of_fits {p : Option (List Nat)} (h : (p.getD []).all fitsByte = true) :
    ∃ q, toPayload p = .ok q := by
  cases p with
  | none => exact ⟨none, rfl⟩
  | some ns =>
    have hns : ns.all fitsByte = true := h
    exact ⟨some _, by rw [toPayload, toBytes_of_fits hns, Except.map]⟩

/-- A code has one form of operands, and operands of that form decode when each fits its field. -/
theorem decodeOperands_of_fits {op : Op} {o : Operands}
    (hshape : ({ op := op.code.toNat, operands := o } : Request).shapeFits = true) (hwidths : o.widthsFit = true) :
    ∃ i, decodeOperands op o = .ok i := by
  cases o with
  | noOperands =>
    cases op
    case crcClr => exact ⟨.crcClr, rfl⟩
    case crcRead => exact ⟨.crcRead, rfl⟩
    all_goals exact absurd hshape (by decide)
  | byte b =>
    cases op
    case crcFeed => exact ⟨.crcFeed _, by rw [decodeOperands, toByte_of_fits hwidths, Except.map]⟩
    all_goals exact absurd hshape (by simp [Request.shapeFits, Op.code])
  | data d =>
    cases op
    case crcCalc => exact ⟨.crcCalc _, by rw [decodeOperands, toBytes_of_fits hwidths, Except.map]⟩
    all_goals exact absurd hshape (by simp [Request.shapeFits, Op.code])
  | packet v c p =>
    cases op
    case frmPack =>
      simp only [Operands.widthsFit, Bool.and_eq_true] at hwidths
      obtain ⟨⟨hv, hc⟩, hp⟩ := hwidths
      obtain ⟨q, hq⟩ := toPayload_of_fits hp
      exact ⟨.frmPack _ _ q, by rw [decodeOperands, toSerno_of_fits hv, toByte_of_fits hc, hq]⟩
    all_goals exact absurd hshape (by simp [Request.shapeFits, Op.code])
  | buffer b =>
    cases op
    case frmUnpack => exact ⟨.frmUnpack _, by rw [decodeOperands, toBytes_of_fits hwidths, Except.map]⟩
    all_goals exact absurd hshape (by simp [Request.shapeFits, Op.code])

theorem decode_of_wf {r : Request} (h : r.wf = true) : ∃ i, decode r = .ok i := by
  obtain ⟨n, o⟩ := r
  simp only [Request.wf, Bool.and_eq_true] at h
  obtain ⟨⟨hl, hshape⟩, hwidths⟩ := h
  obtain ⟨op, rfl⟩ := exists_code_of_legalOp hl
  rw [decode_code]
  exact decodeOperands_of_fits hshape hwidths

/-- Settles O12: a record that decodes is an instruction's own record, which is well formed; and a well-formed one decodes. -/
theorem decodesExactlyWellFormedRequests : Obligations.DecodesExactlyWellFormedRequests := by
  intro r
  constructor
  · rintro ⟨i, h⟩
    rw [← encode_of_decode h]
    exact encode_wf i
  · exact decode_of_wf

/-! ### Which wide value is named -/

theorem decodeOperands_wideSerno {v : Nat} (c : Nat) (p : Option (List Nat)) (h : 16777215 < v) :
    decodeOperands .frmPack (.packet v c p) = .error (.wideSerno v) := by
  simp [decodeOperands, toSerno_of_wide h]

theorem decodeOperands_wideCmd {v c : Nat} (p : Option (List Nat)) (hv : v ≤ 16777215) (h : 255 < c) :
    decodeOperands .frmPack (.packet v c p) = .error (.wideByte c) := by
  have hserno := toSerno_of_fits (decide_eq_true hv)
  simp [decodeOperands, hserno, toByte_of_wide h]

theorem decodeOperands_wideFeed {b : Nat} (h : 255 < b) :
    decodeOperands .crcFeed (.byte b) = .error (.wideByte b) := by
  rw [decodeOperands, toByte_of_wide h, Except.map]

section
variable (before : Bytes) {n : Nat} (after : List Nat)

theorem decodeOperands_wideData (h : 255 < n) :
    decodeOperands .crcCalc (.data (before.map BitVec.toNat ++ n :: after)) = .error (.wideByte n) := by
  rw [decodeOperands, ← ofBytes, toBytes_of_wide before after h, Except.map]

theorem decodeOperands_wideBuffer (h : 255 < n) :
    decodeOperands .frmUnpack (.buffer (before.map BitVec.toNat ++ n :: after)) = .error (.wideByte n) := by
  rw [decodeOperands, ← ofBytes, toBytes_of_wide before after h, Except.map]

theorem decodeOperands_widePayload {v c : Nat} (hv : v ≤ 16777215) (hc : c ≤ 255) (h : 255 < n) :
    decodeOperands .frmPack (.packet v c (some (before.map BitVec.toNat ++ n :: after))) = .error (.wideByte n) := by
  have hserno := toSerno_of_fits (decide_eq_true hv)
  have hcmd := toByte_of_fits (decide_eq_true (Nat.lt_succ_of_le hc))
  have hpayload : toPayload (some (before.map BitVec.toNat ++ n :: after)) = .error (.wideByte n) := by
    rw [toPayload, ← ofBytes, toBytes_of_wide before after h, Except.map]
  simp only [decodeOperands, hserno, hcmd, hpayload]

end

end Sys2Proof

/-! What a step does with the next request: which requests it answers, which it refuses and by what name, and what an answer
leaves unchanged (10_state.md rules R22 to R24, R29, R33, 60_exceptions.md rules R163, R165). -/

namespace Sys2Proof.Machine

open Sys2Proof Sys2Proof.Spec

/-! ### The step of a request that decodes, and of one that does not -/

theorem step_of_decode {s : State} {r : Request} {rest : List Request} {i : Instr} (hs : s.script = r :: rest)
    (hd : decode r = .ok i) (hb : withinBound s.cfg i = true) : step s = exec i { s with script := rest } := by
  rw [step_cons hs]
  exact issue_of_decode hd hb

theorem issue_of_decode_error {r : Request} {s : State} {e : DecodeError} (hd : decode r = .error e) :
    issue r s = reject e s := by
  simp [issue, hd]

theorem step_of_decode_error {s : State} {r : Request} {rest : List Request} {e : DecodeError} (hs : s.script = r :: rest)
    (hd : decode r = .error e) : step s = reject e { s with script := rest } := by
  rw [step_cons hs, issue_of_decode_error hd]

theorem issue_encode_too_long {i : Instr} {s : State} {bound : Nat} (hm : s.cfg.maxIn = some bound)
    (hlen : bound < inputLength i) : issue (encode i) s = .refused (.inputTooLong (inputLength i) bound) := by
  simp [issue, decode_encode, withinBound, hm, Nat.not_le.mpr hlen]

/-- Settles O4: a request that decodes within the bound is performed by `exec`; with none the step is idle. -/
theorem stepRunsTheDecodedInstruction : Obligations.StepRunsTheDecodedInstruction :=
  ⟨fun _ _ _ _ => step_of_decode, fun _ => step_nil⟩

/-! ### The frame of an answer -/

theorem exec_frame {i : Instr} {s t : State} (h : exec i s = .next t) :
    t.cfg = s.cfg ∧ t.script = s.script ∧ ∃ q, t.responses = s.responses ++ [q] := by
  rw [exec_eq] at h
  cases h
  exact ⟨rfl, rfl, _, rfl⟩

theorem issue_frame {r : Request} {s t : State} (h : issue r s = .next t) :
    t.cfg = s.cfg ∧ t.script = s.script ∧ ∃ q, t.responses = s.responses ++ [q] := by
  obtain ⟨i, -, -, hexec⟩ | ⟨op, -, rfl⟩ := issue_cases h
  · exact exec_frame hexec
  · exact ⟨rfl, rfl, _, rfl⟩

/-- Settles O6: an idle step keeps the state, and an issued request adds its one response off the rest of the script. -/
theorem stepTakesOneRequestAndReturnsOneResponse : Obligations.StepTakesOneRequestAndReturnsOneResponse := by
  intro s t h
  obtain ⟨hs, rfl⟩ | ⟨r, rest, hs, hissue⟩ := step_cases h
  · exact ⟨rfl, by rw [hs]; rfl, fun _ => rfl, fun hne => absurd hs hne⟩
  · obtain ⟨hcfg, hscript, hresp⟩ := issue_frame hissue
    have hne : s.script ≠ [] := hs ▸ List.cons_ne_nil r rest
    exact ⟨hcfg, by rw [hscript, hs]; rfl, fun hnil => absurd hnil hne, fun _ => hresp⟩

/-! ### What is written to `ACC` -/

/-- The table holds eight rounds of each byte (40_crc8.md rule R102). -/
theorem crcTableAt_eq_crcRounds : ∀ b : Byte, crcTableAt b = crcRounds 8 b := by
  decide +kernel

theorem crc8Step_eq_crcTableAt (c b : Byte) : crc8Step c b = crcTableAt (c ^^^ b) :=
  (crcTableAt_eq_crcRounds _).symm

theorem accAfter_eq_self {i : Instr} (acc : Byte) (hclr : i ≠ .crcClr) (hfeed : ∀ b, i ≠ .crcFeed b) :
    accAfter i acc = acc := by
  cases i with
  | crcClr => exact absurd rfl hclr
  | crcFeed b => exact absurd rfl (hfeed b)
  | crcRead | crcCalc | frmPack | frmUnpack => rfl

/-- The two operations that write `ACC` have no error status. -/
theorem accAfter_eq_self_of_error (k : Fin 3) (acc : Byte) {i : Instr} (h : (responseOf k acc i).statusCode ≠ 0x00) :
    accAfter i acc = acc := by
  cases i with
  | crcClr | crcFeed => exact absurd rfl h
  | crcRead | crcCalc | frmPack | frmUnpack => rfl

/-- Settles O48: every operation is `accAfter` and one response, and `accAfter` is the old `ACC` but for `CRC.CLR` and `CRC.FEED`. -/
theorem onlyClrAndFeedWriteTheAccumulator : Obligations.OnlyClrAndFeedWriteTheAccumulator := by
  intro i s
  refine ⟨_, _, exec_eq i s, rfl, rfl, rfl, ?_, ?_, accAfter_eq_self s.acc, accAfter_eq_self_of_error s.cfg.kLen s.acc⟩
  · rintro rfl
    rfl
  · rintro b rfl
    exact crc8Step_eq_crcTableAt s.acc b

/-! ### Which requests are answered -/

/-- `Fault` has no constructor, so an outcome that is no next state is a refusal. -/
theorem StepOutcome.refused_iff (o : StepOutcome) : (∃ q, o = .refused q) ↔ ¬∃ t, o = .next t := by
  cases o with
  | next t => simp
  | fault f => cases f
  | refused q => simp

theorem inputFits_encode (c : BlockConfig) (i : Instr) : inputFits c (encode i) = withinBound c i := by
  have hlen : (encode i).operands.inputLength = inputLength i := by
    cases i with
    | crcClr | crcFeed | crcRead => rfl
    | crcCalc d => exact List.length_map _
    | frmPack v c p =>
      cases p with
      | none => rfl
      | some p => exact List.length_map _
    | frmUnpack b => exact List.length_map _
  cases hm : c.maxIn with
  | none => simp [inputFits, withinBound, hm]
  | some bound => simp [inputFits, withinBound, hm, hlen]

theorem admissible_of_illegal (c : BlockConfig) {r : Request} (hn : r.op < 256) (hl : legalOp r.op = false) :
    admissible c r = true := by
  simp [admissible, fitsByte, hn, hl]

theorem admissible_encode (c : BlockConfig) (i : Instr) : admissible c (encode i) = withinBound c i := by
  have hwf := encode_wf i
  have hl : legalOp (encode i).op = true := by
    rw [Request.wf, Bool.and_eq_true, Bool.and_eq_true] at hwf
    exact hwf.1.1
  simp [admissible, fitsByte_of_legalOp hl, hl, hwf, inputFits_encode]

/-- An admissible record has an illegal code of 8 bits, or is the record of an instruction within the bound. -/
theorem admissible_cases {c : BlockConfig} {r : Request} (h : admissible c r = true) :
    (r.op < 256 ∧ legalOp r.op = false) ∨ ∃ i, r = encode i ∧ withinBound c i = true := by
  simp only [admissible, fitsByte, Bool.and_eq_true, Bool.or_eq_true, Bool.not_eq_true', decide_eq_true_eq] at h
  obtain ⟨hn, hl | ⟨hwf, hfits⟩⟩ := h
  · exact .inl ⟨hn, hl⟩
  · obtain ⟨i, hd⟩ := decode_of_wf hwf
    obtain rfl := encode_of_decode hd
    exact .inr ⟨i, rfl, (inputFits_encode c i).symm.trans hfits⟩

theorem issue_answers_iff (r : Request) (s : State) : (∃ t, issue r s = .next t) ↔ admissible s.cfg r = true := by
  constructor
  · rintro ⟨t, h⟩
    obtain ⟨i, hd, hb, -⟩ | ⟨op, hd, -⟩ := issue_cases h
    · rw [← encode_of_decode hd, admissible_encode, hb]
    · obtain ⟨hn, hl⟩ := decode_eq_illegalOp hd
      exact admissible_of_illegal s.cfg hn hl
  · intro h
    obtain ⟨hn, hl⟩ | ⟨i, rfl, hb⟩ := admissible_cases h
    · exact ⟨_, issue_of_illegalOp (decode_illegal hn hl)⟩
    · exact ⟨_, (issue_of_decode (decode_encode i) hb).trans (exec_eq i s)⟩

theorem step_answers_iff (s : State) :
    (∃ t, step s = .next t) ↔
      (s.script = [] ∨ ∃ r rest, s.script = r :: rest ∧ admissible s.cfg r = true) := by
  cases hs : s.script with
  | nil => simp [step_nil hs]
  | cons r rest =>
    rw [step_cons hs, issue_answers_iff]
    simp

theorem step_refuses_iff (s : State) :
    (∃ q, step s = .refused q) ↔ ∃ r rest, s.script = r :: rest ∧ admissible s.cfg r = false := by
  rw [StepOutcome.refused_iff, step_answers_iff]
  cases hs : s.script with
  | nil => simp
  | cons r rest => simp

/-- Settles O7: the answered requests are the admissible ones, the others are refused, and an illegal code answers `E_ILLOP`. -/
theorem stepAnswersExactlyAdmissibleRequests : Obligations.StepAnswersExactlyAdmissibleRequests := by
  intro s
  refine ⟨step_answers_iff s, step_refuses_iff s, fun r rest hs hn hl => ?_⟩
  rw [step_of_decode_error hs (decode_illegal hn hl)]
  rfl

/-! ### What is refused, by name -/

/-- Settles O8: the decoder names the first wide value, and a record that decodes is then held against `MAX_IN`. -/
theorem wideOrLongOperandsAreRefused : Obligations.WideOrLongOperandsAreRefused := by
  refine ⟨?serno, ?cmd, ?feed, ?sequence, ?code, ?tooLong⟩
  case serno =>
    intro s v c p rest hs h
    exact step_of_decode_error hs ((decode_code .frmPack _).trans (decodeOperands_wideSerno c p h))
  case cmd =>
    intro s v c p rest hs hv h
    exact step_of_decode_error hs ((decode_code .frmPack _).trans (decodeOperands_wideCmd p hv h))
  case feed =>
    intro s b rest hs h
    exact step_of_decode_error hs ((decode_code .crcFeed _).trans (decodeOperands_wideFeed h))
  case sequence =>
    rintro s before n after rest h (hs | hs | ⟨v, c, hv, hc, hs⟩)
    · exact step_of_decode_error hs ((decode_code .crcCalc _).trans (decodeOperands_wideData before after h))
    · exact step_of_decode_error hs ((decode_code .frmUnpack _).trans (decodeOperands_wideBuffer before after h))
    · exact step_of_decode_error hs ((decode_code .frmPack _).trans (decodeOperands_widePayload before after hv hc h))
  case code =>
    intro s n o rest hs h
    exact step_of_decode_error hs (decode_of_wide h)
  case tooLong =>
    intro s i bound rest hs hm hlen
    rw [step_cons hs]
    exact issue_encode_too_long hm hlen

end Sys2Proof.Machine

/-! Bounds and repetition: an allowed `MAX_IN` admits every packed frame (20_memory.md rule R53), and the
operations that keep `ACC` are idempotent (rule R45). -/

namespace Sys2Proof.Machine

open Sys2Proof

/-! ### The bound on inputs -/

/-- An allowed `MAX_IN` admits every input of up to 258 bytes. -/
theorem withinBound_of_le_minBound {c : BlockConfig} {i : Instr} (hc : c.wf = true)
    (hi : inputLength i ≤ Config.minBound) : withinBound c i = true := by
  cases hm : c.maxIn with
  | none => simp [withinBound, hm]
  | some bound =>
    have hbound : Config.minBound ≤ bound := by simpa [BlockConfig.wf, hm] using hc
    simpa [withinBound, hm] using hi.trans hbound

theorem length_le_minBound_of_pack {k : Fin 3} {serno : Serno} {cmd : Byte} {payload : Option Bytes} {f : Bytes}
    (h : pack k serno cmd payload = .ok f) : f.length ≤ Config.minBound := by
  obtain ⟨hp, rfl⟩ := pack_ok h
  rw [buildFrame_length, Config.minBound]
  split <;> omega

/-- Settles O35: a packed frame has at most 258 bytes, which every allowed `MAX_IN` admits. -/
theorem everyPackedFrameIsWithinTheBound : Obligations.EveryPackedFrameIsWithinTheBound :=
  fun _ _ _ _ _ hc hf => withinBound_of_le_minBound hc (length_le_minBound_of_pack hf)

/-! ### Operations repeated -/

theorem exec_eq_respond {i : Instr} (s : State) (hclr : i ≠ .crcClr) (hfeed : ∀ b, i ≠ .crcFeed b) :
    exec i s = .next (s.respond (responseOf s.cfg.kLen s.acc i)) := by
  rw [exec_eq, accAfter_eq_self s.acc hclr hfeed]
  rfl

/-- The feed of 0x01, repeated from 0x00, takes `ACC` on from the value it had reached. -/
theorem crc8Step_repeated_ne : crc8Step (crc8Step 0x00 0x01) 0x01 ≠ crc8Step 0x00 0x01 := by
  decide +kernel

/-- Settles O51: the four operations only respond, and the response reads the configuration and `ACC`, which no response
changes; `CRC.CLR` always writes the seed; `CRC.FEED 0x01` repeated from reset moves `ACC` again. -/
theorem readingOperationsAreIdempotent : Obligations.ReadingOperationsAreIdempotent := by
  refine ⟨?keeping, ?clr, ?feed⟩
  case keeping =>
    intro i s t u hclr hfeed ht hu
    rw [exec_eq_respond _ hclr hfeed] at ht hu
    cases ht
    cases hu
    simp
  case clr =>
    intro s t u ht hu
    cases ht
    cases hu
    rfl
  case feed =>
    refine ⟨0x01, State.resetWith Config.built, _, _, exec_crcFeed _ _, exec_crcFeed _ _, ?_⟩
    simpa only [State.respond_acc, State.setAcc_acc, State.resetWith_acc] using crc8Step_repeated_ne

end Sys2Proof.Machine

/-! Encoding and decoding of requests (30_encoding.md rules R70, R71, R74): the operation codes, the table's words and the
illegal codes. -/

namespace Sys2Proof.Machine

open Sys2Proof

/-! ### Records and codes -/

/-- Settles O10: the code of an instruction's record names its operation, and its operands are taken as they are. -/
theorem decodeOfEncodeIsTheInstruction : Obligations.DecodeOfEncodeIsTheInstruction :=
  decode_encode

/-- Settles O11: the decoder keeps the code and every operand of the record. -/
theorem encodeOfDecodeIsTheRequest : Obligations.EncodeOfDecodeIsTheRequest :=
  fun _ _ => encode_of_decode

/-- The codes that the records of instructions carry (30_encoding.md rule R70). -/
theorem encode_op_mem (i : Instr) : (encode i).op ∈ [0x10, 0x11, 0x12, 0x13, 0x20, 0x21] := by
  cases i <;> simp [encode]

/-- Settles O13: each record of the table is an instruction's own, and a record that decodes carries an instruction's code. -/
theorem operationCodesNameTheirOperations : Obligations.OperationCodesNameTheirOperations := by
  refine ⟨decode_encode .crcClr, fun b => decode_encode (.crcFeed b), decode_encode .crcRead,
    fun d => decode_encode (.crcCalc d), fun v c => decode_encode (.frmPack v c none),
    fun v c p => decode_encode (.frmPack v c (some p)), fun b => decode_encode (.frmUnpack b), fun r i h => ?_⟩
  rw [← encode_of_decode h]
  exact encode_op_mem i

/-! ### Words of the operation table -/

theorem decode_of_decodeTableWord {nbits w : Nat} {i : Instr} (h : decodeTableWord nbits w = some i) :
    decode (tableRequest nbits w) = .ok i := by
  unfold decodeTableWord at h
  split at h
  · next hd =>
    cases h
    exact hd
  · cases h

/-- A table word has no input sequence. -/
theorem zeroOperands_inputLength (op : Nat) : (zeroOperands op).inputLength = 0 := by
  unfold zeroOperands
  split <;> rfl

theorem inputFits_tableRequest (c : BlockConfig) (nbits w : Nat) : inputFits c (tableRequest nbits w) = true := by
  cases hm : c.maxIn <;> simp [inputFits, hm, tableRequest, zeroOperands_inputLength]

/-- The instruction of a table word is within every `MAX_IN`. -/
theorem withinBound_of_decodeTableWord (c : BlockConfig) {nbits w : Nat} {i : Instr}
    (h : decodeTableWord nbits w = some i) : withinBound c i = true := by
  rw [← inputFits_encode, encode_of_decode (decode_of_decodeTableWord h)]
  exact inputFits_tableRequest c nbits w

/-- Settles O5: the table word's request heads the script, decodes to the instruction, and has no input to bound. -/
theorem fetchWordRunsTheTableInstruction : Obligations.FetchWordRunsTheTableInstruction :=
  fun s w _ h => step_of_decode (s := s.withFetchWord 8 w) rfl (decode_of_decodeTableWord h)
    (withinBound_of_decodeTableWord s.cfg h)

/-- Settles O14: the eight words are closed, so the decoder evaluates on them. -/
theorem tableWordsDecode : Obligations.TableWordsDecode := by
  unfold Obligations.TableWordsDecode
  decide

/-! ### Illegal codes -/

/-- The three ranges of rule R71 hold 8-bit codes that name no operation. -/
theorem illegal_of_range {op : Nat}
    (h : op ≤ 0x0F ∨ (0x14 ≤ op ∧ op ≤ 0x1F) ∨ (0x22 ≤ op ∧ op ≤ 0xFF)) : op < 256 ∧ legalOp op = false := by
  refine ⟨by omega, Bool.eq_false_iff.mpr fun hl => ?_⟩
  simp only [legalOp, Bool.or_eq_true, Bool.and_eq_true, decide_eq_true_eq, beq_iff_eq] at hl
  omega

/-- Settles O15: the code alone decides, so the operands' widths and lengths are not asked for. -/
theorem illegalCodesAnswerIllop : Obligations.IllegalCodesAnswerIllop := by
  intro s op o rest hrange _ _ hs
  obtain ⟨hn, hl⟩ := illegal_of_range hrange
  refine ⟨?_, rfl⟩
  rw [step_of_decode_error hs (decode_illegal hn hl)]
  rfl

end Sys2Proof.Machine

/-! The layout of a frame (30_encoding.md rules R61, R62, R65): the bytes of the serial number, where each field of a
packed frame lies, and the payload checksum. -/

namespace Sys2Proof.Machine

open Sys2Proof Sys2Proof.Spec

/-! ### The bytes of a serial number -/

theorem sernoBytes_eq_sernoField (v : Serno) : sernoBytes v = sernoField v := by
  have hv := v.isLt
  simp only [sernoBytes, sernoField, List.cons.injEq, and_true]
  refine ⟨?_, ?_, ?_⟩ <;> apply BitVec.eq_of_toNat_eq <;>
    simp only [BitVec.extractLsb'_toNat, BitVec.toNat_ofNat, Nat.shiftRight_eq_div_pow] <;> omega

/-- The bytes do not overlap, so assembling them adds their places. -/
theorem sernoOfBytes_toNat (b0 b1 b2 : Byte) :
    (sernoOfBytes b0 b1 b2).toNat = b0.toNat + 256 * b1.toNat + 65536 * b2.toNat := by
  have h0 := b0.isLt
  have h1 := b1.isLt
  have h2 := b2.isLt
  have hlow : b0.toNat ||| 2 ^ 8 * b1.toNat = 2 ^ 8 * b1.toNat + b0.toNat := by
    rw [Nat.or_comm, Nat.two_pow_add_eq_or_of_lt h0]
  have hlt : 2 ^ 8 * b1.toNat + b0.toNat < 2 ^ 16 := by omega
  have hall : (2 ^ 8 * b1.toNat + b0.toNat) ||| 2 ^ 16 * b2.toNat = 2 ^ 16 * b2.toNat + (2 ^ 8 * b1.toNat + b0.toNat) := by
    rw [Nat.or_comm]
    exact (Nat.two_pow_add_eq_or_of_lt hlt b2.toNat).symm
  have hwide0 : b0.toNat % 2 ^ 24 = b0.toNat := by omega
  have hwide1 : 2 ^ 8 * (b1.toNat % 2 ^ 24) % 2 ^ 24 = 2 ^ 8 * b1.toNat := by omega
  have hwide2 : 2 ^ 16 * (b2.toNat % 2 ^ 24) % 2 ^ 24 = 2 ^ 16 * b2.toNat := by omega
  simp only [sernoOfBytes, BitVec.toNat_or, BitVec.toNat_shiftLeft, BitVec.truncate_eq_setWidth, BitVec.toNat_setWidth,
    Nat.shiftLeft_eq, Nat.mul_comm _ (2 ^ _), hwide0, hwide1, hwide2, hlow, hall]
  omega

theorem sernoOfBytes_sernoBytes (v : Serno) :
    sernoOfBytes (byteAt (sernoBytes v) 0) (byteAt (sernoBytes v) 1) (byteAt (sernoBytes v) 2) = v := by
  have hv := v.isLt
  apply BitVec.eq_of_toNat_eq
  rw [sernoBytes_eq_sernoField, sernoOfBytes_toNat]
  simp [sernoField, byteAt]
  omega

theorem sernoBytes_sernoOfBytes (b0 b1 b2 : Byte) : sernoBytes (sernoOfBytes b0 b1 b2) = [b0, b1, b2] := by
  have h0 := b0.isLt
  have h1 := b1.isLt
  have h2 := b2.isLt
  simp only [sernoBytes_eq_sernoField, sernoField, sernoOfBytes_toNat, List.cons.injEq, and_true]
  refine ⟨?_, ?_, ?_⟩ <;> apply BitVec.eq_of_toNat_eq <;> rw [BitVec.toNat_ofNat] <;> omega

/-! ### The bytes of a packed frame -/

/-- A built frame begins with its header and the header's checksum. -/
theorem buildFrame_eq_header_append (k : Fin 3) (state cmd : Byte) (serno : Serno) (p : Bytes) :
    ∃ rest, buildFrame k state cmd serno p = withCrc (header state cmd (lengthByte k p.length) serno) ++ rest := by
  rw [buildFrame]
  split
  · exact ⟨[], (List.append_nil _).symm⟩
  · exact ⟨p ++ [crc8 (withCrc (header state cmd (lengthByte k p.length) serno) ++ p)], List.append_assoc _ _ _⟩

theorem slice_buildFrame_serno (k : Fin 3) (state cmd : Byte) (serno : Serno) (p : Bytes) :
    slice (buildFrame k state cmd serno p) 3 6 = sernoField serno := by
  obtain ⟨rest, hf⟩ := buildFrame_eq_header_append k state cmd serno p
  rw [hf, ← sernoBytes_eq_sernoField]
  rfl

/-- Settles O33: a serial number is the sum of its bytes' places, and the header holds its bytes from byte 3 on. -/
theorem serialNumberBytesAreLittleEndian : Obligations.SerialNumberBytesAreLittleEndian := by
  refine ⟨sernoBytes_eq_sernoField, sernoOfBytes_sernoBytes, sernoBytes_sernoOfBytes, sernoOfBytes_toNat, ?_, rfl⟩
  intro k serno cmd payload f h
  obtain ⟨-, rfl⟩ := pack_ok h
  exact slice_buildFrame_serno k reqMarker cmd serno _

/-! ### The payload checksum -/

theorem crc8Step_self (c : Byte) : crc8Step c c = 0x00 := by
  rw [crc8Step, BitVec.xor_self]
  rfl

/-- A sequence with its checksum brings the register back to the seed (40_crc8.md §3). -/
theorem crc8_withCrc (s : Bytes) : crc8 (withCrc s) = 0x00 := by
  rw [withCrc, crc8_append_singleton, crc8Step_self]

/-- So whatever follows a sequence with its checksum has its own checksum. -/
theorem crc8_withCrc_append (s p : Bytes) : crc8 (withCrc s ++ p) = crc8 p := by
  rw [crc8_append, crc8_withCrc]
  rfl

/-- Settles O32: the header ends in its checksum, so the register is at the seed where the payload begins. -/
theorem payloadChecksumIsThatOfThePayload : Obligations.PayloadChecksumIsThatOfThePayload := by
  intro k serno cmd p f hp h
  obtain ⟨-, rfl⟩ := pack_ok h
  rw [Option.getD_some, buildFrame_eq, if_neg hp, withCrc, List.getLast?_concat, crc8_withCrc_append]

/-! ### The bits of a packed frame -/

theorem frameBit_eq_getLsbD (f : Bytes) (i : Nat) {j : Nat} (h : j < 8) : frameBit f (8 * i + j) = (byteAt f i).getLsbD j := by
  have hdiv : (8 * i + j) / 8 = i := by omega
  have hmod : (8 * i + j) % 8 = j := by omega
  rw [frameBit, hdiv, hmod]

theorem lengthByte_eq_lengthValue (k : Fin 3) (n : Nat) : lengthByte k n = BitVec.ofNat 8 (lengthValue k.val n) := by
  unfold lengthByte lengthValue
  split <;> rfl

theorem byteAt_buildFrame_one (k : Fin 3) (state cmd : Byte) (serno : Serno) (p : Bytes) :
    byteAt (buildFrame k state cmd serno p) 1 = cmd := by
  rw [buildFrame]
  split <;> rfl

theorem byteAt_buildFrame_hcrc (k : Fin 3) (state cmd : Byte) (serno : Serno) (p : Bytes) :
    byteAt (buildFrame k state cmd serno p) 6 = crc8 ((buildFrame k state cmd serno p).take 6) := by
  obtain ⟨rest, hf⟩ := buildFrame_eq_header_append k state cmd serno p
  rw [hf]
  rfl

/-- Bytes 3 to 5 of a frame hold the serial number in order of significance. -/
theorem byteAt_buildFrame_serno (k : Fin 3) (state cmd : Byte) (serno : Serno) (p : Bytes) {m : Nat} (h : m < 3) :
    byteAt (buildFrame k state cmd serno p) (3 + m) = serno.extractLsb' (8 * m) 8 := by
  obtain ⟨rest, hf⟩ := buildFrame_eq_header_append k state cmd serno p
  rw [hf]
  match m, h with
  | 0, _ | 1, _ | 2, _ => rfl

theorem frameBit_buildFrame_serno (k : Fin 3) (state cmd : Byte) (serno : Serno) (p : Bytes) {j : Nat} (h : j < 24) :
    frameBit (buildFrame k state cmd serno p) (24 + j) = serno.getLsbD j := by
  have hplace : 24 + j = 8 * (3 + j / 8) + j % 8 := by omega
  have hbit : 8 * (j / 8) + j % 8 = j := by omega
  have hlt : j % 8 < 8 := by omega
  rw [hplace, frameBit_eq_getLsbD _ _ hlt, byteAt_buildFrame_serno k state cmd serno p (by omega), BitVec.getLsbD_extractLsb',
    hbit, decide_eq_true hlt, Bool.true_and]

section payload

variable (k : Fin 3) (state cmd : Byte) (serno : Serno) {p : Bytes}

/-- The payload follows the seven bytes of the header and its checksum. -/
theorem byteAt_buildFrame_payload {m : Nat} (h : m < p.length) :
    byteAt (buildFrame k state cmd serno p) (7 + m) = byteAt p m := by
  have hp : p ≠ [] := List.ne_nil_of_length_pos (by omega)
  have hlen : (withCrc (header state cmd (lengthByte k p.length) serno)).length = 7 := rfl
  have hin : 7 + m < (withCrc (header state cmd (lengthByte k p.length) serno) ++ p).length := by
    rw [List.length_append, hlen]
    omega
  rw [buildFrame_eq, if_neg hp, withCrc, byteAt, List.getD_append _ _ _ _ hin,
    List.getD_append_right _ _ _ _ (by omega), hlen, Nat.add_sub_cancel_left, byteAt]

/-- The byte behind the payload is the checksum of everything before it (30_encoding.md rule R64). -/
theorem byteAt_buildFrame_pcrc (hp : p ≠ []) :
    byteAt (buildFrame k state cmd serno p) (7 + p.length) =
      crc8 ((buildFrame k state cmd serno p).take (7 + p.length)) := by
  have hlen : (withCrc (header state cmd (lengthByte k p.length) serno) ++ p).length = 7 + p.length := by
    rw [List.length_append, withCrc_length, header_length]
  rw [buildFrame_eq, if_neg hp, ← hlen, withCrc, List.take_left, byteAt, List.getD_append_right _ _ _ _ (le_refl _),
    Nat.sub_self]
  rfl

end payload

/-- Settles O34: each field of the layout is a byte of the frame, and the serial number is three. -/
theorem frameBitsFollowTheLayout : Obligations.FrameBitsFollowTheLayout := by
  intro k serno cmd payload f h
  obtain ⟨-, rfl⟩ := pack_ok h
  refine ⟨fun j hj => ⟨?marker, ?command, ?length, ?hcrc⟩, fun j hj => ?serno, fun m j hm hj => ?payload,
    fun hp j hj => ?pcrc⟩
  case marker =>
    have hbit := frameBit_eq_getLsbD (buildFrame k reqMarker cmd serno (payload.getD [])) 0 hj
    rwa [Nat.mul_zero, Nat.zero_add, byteAt_buildFrame_zero] at hbit
  case command => rw [frameBit_eq_getLsbD _ 1 hj, byteAt_buildFrame_one]
  case length => rw [frameBit_eq_getLsbD _ 2 hj, byteAt_buildFrame_two, lengthByte_eq_lengthValue]
  case hcrc => rw [frameBit_eq_getLsbD _ 6 hj, byteAt_buildFrame_hcrc]
  case serno => exact frameBit_buildFrame_serno k reqMarker cmd serno _ hj
  case payload => rw [frameBit_eq_getLsbD _ _ hj, byteAt_buildFrame_payload k reqMarker cmd serno hm]
  case pcrc => rw [frameBit_eq_getLsbD _ _ hj, byteAt_buildFrame_pcrc k reqMarker cmd serno hp]

end Sys2Proof.Machine

/-! The assembler's lines as tokens (30_encoding.md rules R72, R73): a line is one operation with its operands, or the
pseudo-operation. -/

namespace Sys2Proof.Machine

open Sys2Proof

/-! ### Sequences -/

theorem parseItems_itemTokens (n : Nat) (ns : List Nat) : parseItems (itemTokens (n :: ns)) = some (n :: ns) := by
  induction ns generalizing n with
  | nil => rfl
  | cons m ms ih => simp [itemTokens, parseItems, ih]

@[simp] theorem parseSeq_seqTokens (s : Bytes) : parseSeq (seqTokens s) = some (ofBytes s) := by
  cases s with
  | nil => rfl
  | cons b s =>
    have hitems := parseItems_itemTokens b.toNat (ofBytes s)
    cases s <;> simpa [seqTokens, ofBytes, parseSeq, itemTokens] using hitems

/-- A payload written as a sequence is present, even when it is empty (30_encoding.md rule R72). -/
theorem parsePayload_seqTokens (s : Bytes) : parsePayload (seqTokens s) = some (some (ofBytes s)) := by
  have hne : seqTokens s ≠ [.word noneWord] := by simp [seqTokens]
  rw [parsePayload, if_neg hne, parseSeq_seqTokens]
  rfl

theorem parsePacket_of_payload (v c : Nat) {ts : List Token} {p : Option (List Nat)} (h : parsePayload ts = some p) :
    parsePacket ([.word sernoWord, .equals, .num v, .comma, .word cmdWord, .equals, .num c, .comma, .word payloadWord,
      .equals] ++ ts) = some (.packet v c p) :=
  congrArg (Option.map _) h

/-! ### Lines -/

/-- The operands of a line, by its operation (30_encoding.md rule R72). -/
def parseOperands (op : Op) (ts : List Token) : Option Operands :=
  match op with
  | .crcClr | .crcRead => parseNothing ts
  | .crcFeed => parseByte ts
  | .crcCalc => (parseSeq ts).map .data
  | .frmPack => parsePacket ts
  | .frmUnpack => (parseSeq ts).map .buffer

theorem parseLine_mnemonic (op : Op) (ts : List Token) :
    parseLine (.word (Op.mnemonic op) :: ts) = (parseOperands op ts).map fun o => [requestOf op o] := by
  cases op with
  | crcClr | crcFeed | crcRead | frmPack => rfl
  | crcCalc | frmUnpack =>
    rw [parseOperands, Option.map_map]
    rfl

theorem parseLine_feedn (ts : List Token) :
    parseLine (.word feednWord :: ts) = (parseSeq ts).map fun d => d.map fun b => requestOf .crcFeed (.byte b) := rfl

/-- A line that assembles begins with a mnemonic or with the pseudo-operation's name. -/
theorem exists_word_of_parseLine {ts : List Token} {rs : List Request} (h : parseLine ts = some rs) :
    ∃ m rest, ts = .word m :: rest ∧ (m = feednWord ∨ ∃ op : Op, m = Op.mnemonic op) := by
  unfold parseLine at h
  split at h
  · next m rest =>
    refine ⟨m, rest, rfl, ?_⟩
    by_contra hm
    obtain ⟨hfeedn, hop⟩ := not_or.mp hm
    rw [not_exists] at hop
    simp [hop, hfeedn] at h
  · cases h

/-- Every line that assembles, but for the pseudo-operation's, is the request of one operation. -/
theorem parseLine_cases {ts : List Token} {rs : List Request} (h : parseLine ts = some rs) :
    ts.head? = some (.word feednWord) ∨ ∃ op o, rs = [requestOf op o] := by
  obtain ⟨m, rest, rfl, rfl | ⟨op, rfl⟩⟩ := exists_word_of_parseLine h
  · exact .inl rfl
  · rw [parseLine_mnemonic] at h
    obtain ⟨o, -, hrs⟩ := Option.map_eq_some_iff.mp h
    exact .inr ⟨op, o, hrs.symm⟩

/-- Settles O53: the mnemonic names the operation, and its tokens give back each operand. -/
theorem writtenInstructionsAssemble : Obligations.WrittenInstructionsAssemble := by
  intro i
  cases i with
  | crcClr | crcFeed | crcRead => rfl
  | crcCalc d =>
    rw [lineTokens, parseLine_mnemonic, parseOperands, parseSeq_seqTokens]
    rfl
  | frmPack v c p =>
    cases p with
    | none => rfl
    | some p =>
      have hpacket := parsePacket_of_payload v.toNat c.toNat (parsePayload_seqTokens p)
      exact (parseLine_mnemonic .frmPack _).trans (congrArg (Option.map _) hpacket)
  | frmUnpack b =>
    rw [lineTokens, parseLine_mnemonic, parseOperands, parseSeq_seqTokens]
    rfl

/-- Settles O54: the sequence's bytes are fed in order, and any other line is the request of one operation. -/
theorem feednExpandsToFeedsInOrder : Obligations.FeednExpandsToFeedsInOrder := by
  refine ⟨fun s => ⟨?_, rfl⟩, fun ts rs h hne => ?_⟩
  · rw [parseLine_feedn, parseSeq_seqTokens, Option.map_some, ofBytes, List.map_map]
    rfl
  · obtain hfeedn | ⟨op, o, rfl⟩ := parseLine_cases h
    · exact absurd hfeedn hne
    · rfl

end Sys2Proof.Machine

/-! The laws of the checksum and of its operations (40_crc8.md §1 to §3, rules R102 to R112): a round is linear and
invertible, so the register tells apart sequences that differ in one byte, and the accumulator steps through the checksum
of the bytes fed. -/

namespace Sys2Proof.Machine

open Sys2Proof Sys2Proof.Spec

/-! ### A step is linear and invertible -/

theorem crc8Step_comm (c b : Byte) : crc8Step c b = crc8Step b c := by
  rw [crc8Step, crc8Step, BitVec.xor_comm]

theorem crc8Step_xor (c d x y : Byte) : crc8Step (c ^^^ d) (x ^^^ y) = crc8Step c x ^^^ crc8Step d y := by
  have hswap : (c ^^^ d) ^^^ (x ^^^ y) = (c ^^^ x) ^^^ (d ^^^ y) := by ac_rfl
  rw [crc8Step, hswap, crcRounds_xor, crc8Step, crc8Step]

/-- A round is linear and takes only 0x00 to 0x00. -/
theorem crcRound_injective : Function.Injective crcRound := by
  have hkernel : ∀ r : Byte, crcRound r = 0#8 → r = 0#8 := by decide +kernel
  intro x y h
  have hdiff : crcRound (x ^^^ y) = 0#8 := by rw [crcRound_xor, h, BitVec.xor_self]
  exact BitVec.xor_eq_zero_iff.mp (hkernel _ hdiff)

theorem crcRounds_injective (n : Nat) : Function.Injective (crcRounds n) := by
  induction n with
  | zero => exact Function.injective_id
  | succ n ih => exact ih.comp crcRound_injective

theorem crcRounds_surjective (n : Nat) : Function.Surjective (crcRounds n) := by
  have hfinite : Finite Byte := Finite.of_injective BitVec.toFin BitVec.toFin_injective
  exact Finite.surjective_of_injective (crcRounds_injective n)

theorem crc8Step_right_injective (c : Byte) : Function.Injective (crc8Step c) :=
  fun _ _ h => (BitVec.xor_right_inj c).mp (crcRounds_injective 8 h)

theorem crc8Step_left_injective (b : Byte) : Function.Injective (crc8Step · b) :=
  fun _ _ h => (BitVec.xor_left_inj b).mp (crcRounds_injective 8 h)

/-- Settles O20: the table holds eight rounds of each byte, and rounds are a permutation. -/
theorem tableFormAgreesWithTheRounds : Obligations.TableFormAgreesWithTheRounds := by
  refine ⟨crc8Step_eq_crcTableAt, by decide +kernel, fun v => ?_⟩
  obtain ⟨i, hi⟩ := crcRounds_surjective 8 v
  exact ⟨i, (crcTableAt_eq_crcRounds i).trans hi⟩

/-- The bytes that eight rounds leave unchanged (40_crc8.md §3). -/
theorem crcRounds_eq_self_iff : ∀ r : Byte, crcRounds 8 r = r ↔ r = 0#8 ∨ r = 0xF7 := by
  decide +kernel

theorem crc8_pair (x y : Byte) : crc8 [x, y] = crcRounds 8 (crcRounds 8 x ^^^ y) := by
  have hseed : crcSeed ^^^ x = x := BitVec.zero_xor
  rw [crc8, crcFrom_cons, crcFrom_cons, crcFrom_nil, crc8Step, crc8Step, hseed]

/-- Settles O25: the two orders agree when eight rounds fix the difference of the two bytes. -/
theorem bytesCommuteExactlyAtTheFixedPoint : Obligations.BytesCommuteExactlyAtTheFixedPoint := by
  intro x y
  have hswap : (crcRounds 8 x ^^^ y) ^^^ (crcRounds 8 y ^^^ x) = crcRounds 8 (x ^^^ y) ^^^ (x ^^^ y) := by
    rw [crcRounds_xor]
    ac_rfl
  calc crc8 [x, y] = crc8 [y, x]
    _ ↔ crcRounds 8 x ^^^ y = crcRounds 8 y ^^^ x := by rw [crc8_pair, crc8_pair, (crcRounds_injective 8).eq_iff]
    _ ↔ crcRounds 8 (x ^^^ y) = x ^^^ y := by
      rw [← BitVec.xor_eq_zero_iff, hswap, BitVec.xor_eq_zero_iff]
    _ ↔ x = y ∨ x ^^^ y = 0xF7 := by rw [crcRounds_eq_self_iff, BitVec.xor_eq_zero_iff]

/-! ### The checksum of a sequence -/

theorem crcFrom_injective (s : Bytes) : Function.Injective (crcFrom · s) := by
  induction s with
  | nil => exact Function.injective_id
  | cons b s ih => exact ih.comp (crc8Step_left_injective b)

theorem crcFrom_zipWith_xor (c d : Byte) {a b : Bytes} (h : a.length = b.length) :
    crcFrom (c ^^^ d) (List.zipWith (· ^^^ ·) a b) = crcFrom c a ^^^ crcFrom d b := by
  induction a generalizing c d b with
  | nil =>
    obtain rfl := List.length_eq_zero_iff.mp h.symm
    rfl
  | cons x a ih =>
    cases b with
    | nil => cases h
    | cons y b =>
      rw [List.zipWith_cons_cons, crcFrom_cons, crc8Step_xor, ih _ _ (Nat.succ.inj h), crcFrom_cons, crcFrom_cons]

/-- Settles O23: both registers start at 0x00, and a step and the table are linear. -/
theorem checksumIsLinear : Obligations.ChecksumIsLinear := by
  refine ⟨fun a b h => crcFrom_zipWith_xor 0x00 0x00 h, fun x y => ?_⟩
  simp only [crcTableAt_eq_crcRounds, crcRounds_xor]

/-- Zero bytes leave the register at the seed. -/
theorem crc8_replicate_zero (n : Nat) : crc8 (List.replicate n 0x00) = 0x00 := by
  induction n with
  | zero => rfl
  | succ n ih => rw [List.replicate_succ', crc8_append_singleton, ih, crc8Step_self]

/-- Settles O22: the register is at the seed where `s` begins. -/
theorem leadingZeroBytesAreInvisible : Obligations.LeadingZeroBytesAreInvisible := by
  intro n s
  rw [crc8_append, crc8_replicate_zero]
  rfl

/-- Settles O21: a frame without payload is its header with the header's checksum. -/
theorem checksumOfSequenceWithItsChecksumIsZero : Obligations.ChecksumOfSequenceWithItsChecksumIsZero :=
  ⟨crc8_withCrc, fun k state cmd serno => crc8_withCrc (headerOf k state cmd serno 0)⟩

/-- Two sequences that differ in one byte only have registers that differ from there on. -/
theorem crcFrom_modify_ne (f : Byte → Byte) (hf : ∀ b, f b ≠ b) (c : Byte) {s : Bytes} {i : Nat} (hi : i < s.length) :
    crcFrom c (s.modify i f) ≠ crcFrom c s := by
  induction s generalizing c i with
  | nil => exact absurd hi (Nat.not_lt_zero i)
  | cons b s ih =>
    cases i with
    | zero =>
      rw [List.modify_zero_cons, crcFrom_cons, crcFrom_cons]
      exact (crcFrom_injective s).ne ((crc8Step_right_injective c).ne (hf b))
    | succ i =>
      rw [List.modify_succ_cons, crcFrom_cons, crcFrom_cons]
      exact ih _ (Nat.lt_of_succ_lt_succ hi)

/-- Settles O24: the inverted bit changes one byte of the sequence. -/
theorem singleBitErrorsChangeTheChecksum : Obligations.SingleBitErrorsChangeTheChecksum := by
  intro s j hj
  have hmask : ∀ k < 8, (1#8 <<< k) ≠ 0#8 := by decide
  refine crcFrom_modify_ne _ (fun b hb => ?_) crcSeed (by omega)
  exact hmask (j % 8) (Nat.mod_lt j (by omega)) ((BitVec.xor_right_inj b).mp (hb.trans BitVec.xor_zero.symm))

/-! ### The operations of the engine -/

/-- The example of rules R103 and R106. -/
theorem crc8_example : crc8 [0xFD, 0x02, 0x00, 0xBB, 0x81, 0x00] = 0x2D := by
  decide +kernel

/-- Settles O16: the seed is 0x00, and the second `CRC.CLR` finds it in `ACC`. -/
theorem clrSetsAccumulatorToSeed : Obligations.ClrSetsAccumulatorToSeed := by
  refine ⟨fun s => ⟨rfl, fun t ht => ?_⟩, rfl, rfl⟩
  cases ht
  rfl

/-- Settles O17: the step is read off the table, and is symmetric in the register and the byte. -/
theorem feedAdvancesAccumulatorByOneByte : Obligations.FeedAdvancesAccumulatorByOneByte := by
  refine ⟨fun s b => ?exec, fun c b => ⟨crc8Step_eq_crcTableAt c b, crc8Step_comm c b, crc8Step_self c⟩,
    crc8Step_self 0x00, ?fedByte, ⟨0x00, 0x01, 0x02, ?order⟩, fun _ => rfl⟩
  case exec =>
    rw [exec_crcFeed, crc8Step_eq_crcTableAt]
    rfl
  case fedByte => decide +kernel
  case order => decide +kernel

/-- Settles O18: a response leaves `ACC` as it is, for the second read. -/
theorem readReturnsAccumulator : Obligations.ReadReturnsAccumulator := by
  refine ⟨fun s => ⟨rfl, fun t ht => ?again⟩, fun _ => rfl, fun s hacc => ?sixFeeds, rfl⟩
  case again =>
    cases ht
    rfl
  case sixFeeds =>
    rw [exec_crcRead, hacc.trans crc8_example]
    rfl

/-- Settles O19: the checksum is the response, and zero bytes leave the register at the seed. -/
theorem calcReturnsChecksumOfData : Obligations.CalcReturnsChecksumOfData :=
  ⟨fun _ _ => rfl, crc8_replicate_zero, crc8_example, fun _ => rfl⟩

/-! ### A run of operations -/

theorem run_add_of_core (M : Host.Core) {m : Nat} {s t : M.State} (h : M.run m s = .next t) (n : Nat) :
    M.run (m + n) s = M.run n t := by
  induction m generalizing s with
  | zero =>
    cases h
    rw [Nat.zero_add]
  | succ m ih =>
    rw [Host.Core.run] at h
    split at h
    · next s' hs =>
      rw [Nat.add_right_comm, run_succ_of_core M hs]
      exact ih h
    all_goals cases h

theorem withinBound_of_no_input (c : BlockConfig) {i : Instr} (h : inputLength i = 0) : withinBound c i = true := by
  cases hm : c.maxIn <;> simp [withinBound, hm, h]

/-- The state when `i` has been performed and `rest` is left of the script. -/
def State.afterInstr (s : State) (i : Instr) (rest : List Request) : State :=
  (({ s with script := rest } : State).setAcc (accAfter i s.acc)).respond (responseOf s.cfg.kLen s.acc i)

theorem State.afterInstr_acc (s : State) (i : Instr) (rest : List Request) :
    (s.afterInstr i rest).acc = accAfter i s.acc := rfl

theorem State.afterInstr_responses (s : State) (i : Instr) (rest : List Request) :
    (s.afterInstr i rest).responses = s.responses ++ [responseOf s.cfg.kLen s.acc i] := rfl

theorem step_encode {s : State} {i : Instr} {rest : List Request} (hs : s.script = encode i :: rest)
    (hb : withinBound s.cfg i = true) : step s = .next (s.afterInstr i rest) :=
  (step_of_decode hs (decode_encode i) hb).trans (exec_eq i _)

/-- An operation but `CRC.CLR` takes the register through the byte it feeds, if any. -/
theorem crcFrom_accAfter {i : Instr} (hclr : i ≠ .crcClr) (c : Byte) (is : List Instr) :
    crcFrom (accAfter i c) (fedBytes is) = crcFrom c (fedBytes (i :: is)) := by
  cases i with
  | crcClr => exact absurd rfl hclr
  | crcFeed | crcRead | crcCalc | frmPack | frmUnpack => rfl

/-- A run of operations but `CRC.CLR` takes `ACC` through the bytes fed. -/
theorem exists_run_of_no_clr {s : State} {is : List Instr} {rest : List Request}
    (his : ∀ i ∈ is, i ≠ .crcClr ∧ withinBound s.cfg i = true) (hs : s.script = is.map encode ++ rest) :
    ∃ t : State, Host.Core.run core is.length s = .next t ∧ t.script = rest ∧
      t.acc = crcFrom s.acc (fedBytes is) := by
  induction is generalizing s with
  | nil => exact ⟨s, run_zero s, hs, rfl⟩
  | cons i is ih =>
    obtain ⟨⟨hclr, hb⟩, htail⟩ := List.forall_mem_cons.mp his
    obtain ⟨t, hrun, hscript, hacc⟩ := ih (s := s.afterInstr i (is.map encode ++ rest)) htail rfl
    refine ⟨t, (run_succ (step_encode hs hb)).trans hrun, hscript, ?_⟩
    rw [hacc, State.afterInstr_acc, crcFrom_accAfter hclr]

/-- Settles O27: `CRC.CLR` sets the seed, the operations after it take `ACC` through the bytes fed, and `CRC.READ`
returns it. -/
theorem accumulatorAgreesWithPureFunction : Obligations.AccumulatorAgreesWithPureFunction := by
  intro s is his hs
  have hclr := step_encode hs (withinBound_of_no_input s.cfg rfl)
  obtain ⟨t, hrun, hscript, hacc⟩ := exists_run_of_no_clr
    (s := s.afterInstr .crcClr (is.map encode ++ [encode .crcRead])) his rfl
  have hread := step_encode hscript (withinBound_of_no_input t.cfg rfl)
  have hcrc : t.acc = crc8 (fedBytes is) := hacc
  refine ⟨t.afterInstr .crcRead [], ?run, hcrc, ?response⟩
  case run =>
    rw [hs, List.length_cons, List.length_append, List.length_map, List.length_singleton, run_succ hclr,
      run_add_of_core core hrun, run_succ hread, run_zero]
  case response =>
    rw [State.afterInstr_responses, List.getLast?_concat, responseOf, hcrc]

end Sys2Proof.Machine

/-! Building frames and taking them apart (41_framer.md rules R120 to R124, R130 to R140): the model's frame is the frame
of the layout, `unpack` accepts it with its record, and a buffer that is no frame fails one of the four checks. -/

namespace Sys2Proof.Machine

open Sys2Proof Sys2Proof.Spec

/-! ### The framer's answers as states -/

theorem exec_frmPack_of_ok {s : State} {serno : Serno} {cmd : Byte} {payload : Option Bytes} {f : Bytes}
    (h : pack s.cfg.kLen serno cmd payload = .ok f) :
    exec (.frmPack serno cmd payload) s = .next (answered s (.ok (.frame f))) := by
  rw [exec_frmPack, h]
  rfl

theorem exec_frmPack_of_error {s : State} {serno : Serno} {cmd : Byte} {payload : Option Bytes} {e : BlockError}
    (h : pack s.cfg.kLen serno cmd payload = .error e) :
    exec (.frmPack serno cmd payload) s = .next (answered s (.error e)) := by
  rw [exec_frmPack, h]
  rfl

theorem exec_frmUnpack_of_error {s : State} {buf : Bytes} {e : BlockError} (h : unpack s.cfg.kLen buf = .error e) :
    exec (.frmUnpack buf) s = .next (answered s (.error e)) := by
  rw [exec_frmUnpack, h]
  rfl

theorem answered_injective (s : State) : Function.Injective (answered s) := fun r q h => by
  have hresp : s.responses ++ [r] = s.responses ++ [q] := congrArg State.responses h
  simpa using hresp

/-- The answer tells which record `unpack` gave. -/
theorem exec_frmUnpack_eq_ok_iff {s : State} {buf : Bytes} {u : Unpacked} :
    exec (.frmUnpack buf) s = .next (answered s (.ok (.unpacked u))) ↔ unpack s.cfg.kLen buf = .ok u := by
  cases h : unpack s.cfg.kLen buf with
  | ok v =>
    have hv : exec (.frmUnpack buf) s = .next (answered s (.ok (.unpacked v))) := by
      rw [exec_frmUnpack, h]
      rfl
    rw [hv, Host.Outcome.next.injEq, (answered_injective s).eq_iff]
    simp
  | error e =>
    rw [exec_frmUnpack_of_error h, Host.Outcome.next.injEq, (answered_injective s).eq_iff]
    simp

/-! ### The model's frame is the frame of the layout -/

theorem headerOf_eq_header (k : Fin 3) (state cmd : Byte) (serno : Serno) (n : Nat) :
    headerOf k state cmd serno n = header state cmd (lengthByte k n) serno := by
  rw [headerOf, header, lengthByte_eq_lengthValue, sernoBytes_eq_sernoField]
  rfl

theorem frameOf_eq_buildFrame (k : Fin 3) (state cmd : Byte) (serno : Serno) (p : Bytes) :
    frameOf k state cmd serno p = buildFrame k state cmd serno p := by
  simp only [frameOf, headerOf_eq_header]
  cases p <;> rfl

/-- Any six bytes are the header of their own fields (30_encoding.md rule R62). -/
theorem header_sernoOfBytes (a0 a1 l a3 a4 a5 : Byte) :
    header a0 a1 l (sernoOfBytes a3 a4 a5) = [a0, a1, l, a3, a4, a5] := by
  rw [header, sernoBytes_sernoOfBytes]

/-! ### Every frame is accepted -/

/-- A frame passes the four checks of rule R130 and gives back its fields. -/
theorem unpack_frameOf (k : Fin 3) (state cmd : Byte) (serno : Serno) {p : Bytes} (h : p.length ≤ 250) :
    unpack k (frameOf k state cmd serno p) = .ok (recordOf k state cmd serno p) := by
  have hserno : sernoOfBytes (serno.extractLsb' 0 8) (serno.extractLsb' 8 8) (serno.extractLsb' 16 8) = serno :=
    sernoOfBytes_sernoBytes serno
  rw [frameOf_eq_buildFrame, buildFrame_eq, recordOf, ← lengthByte_eq_lengthValue]
  split
  case isTrue hp =>
    subst hp
    refine (unpack_of_zero _ _ _ _ _ _ _ _ _ rfl rfl).trans ((if_pos rfl).trans ?_)
    rw [hserno]
    rfl
  case isFalse hp =>
    have h1 : 1 ≤ p.length := List.length_pos_of_ne_nil hp
    refine (unpack_of_payload _ _ _ _ _ _ _ _ p _ rfl ⟨h1, h⟩ (lengthByte_toNat k h1 h)).trans ((if_pos rfl).trans ?_)
    rw [hserno]

theorem ne_zero_of_toNat_ne_zero {b : Byte} (h : b.toNat ≠ 0) : b ≠ 0 := BitVec.toNat_ne_iff_ne.mp h

theorem lengthByte_eq_zero_iff (k : Fin 3) {n : Nat} (h : n ≤ 250) : lengthByte k n = 0 ↔ n = 0 := by
  constructor
  · intro hz
    by_contra hn
    have hl := lengthByte_toNat k (Nat.one_le_iff_ne_zero.mpr hn) h
    exact ne_zero_of_toNat_ne_zero (by omega) hz
  · rintro rfl
    rfl

theorem recordOf_payload_eq_none_iff (k : Fin 3) (state cmd : Byte) (serno : Serno) {p : Bytes} (h : p.length ≤ 250) :
    (recordOf k state cmd serno p).payload = none ↔ (recordOf k state cmd serno p).length = 0x00 := by
  rw [recordOf, ← lengthByte_eq_lengthValue, lengthByte_eq_zero_iff k h, List.length_eq_zero_iff]
  simp

/-- Settles O40: a frame passes every check, and its length byte is 0 only without payload. -/
theorem unpackTakesEveryFrameApart : Obligations.UnpackTakesEveryFrameApart :=
  fun s state cmd serno _ h => ⟨exec_frmUnpack_eq_ok_iff.mpr (unpack_frameOf s.cfg.kLen state cmd serno h),
    recordOf_payload_eq_none_iff s.cfg.kLen state cmd serno h⟩

/-- Settles O43: what `FRM.PACK` builds is the frame of its operands, and an empty payload is absent in the record. -/
theorem unpackOfPackRecoversTheOperands : Obligations.UnpackOfPackRecoversTheOperands := by
  intro s serno cmd payload h
  refine ⟨_, exec_frmPack_of_ok (pack_of_le h), exec_frmUnpack_eq_ok_iff.mpr ?_⟩
  rw [← frameOf_eq_buildFrame, unpack_frameOf _ _ _ _ h, recordOf]
  cases payload with
  | none => rfl
  | some p => simp [reqMarker]

/-! ### Nothing else is accepted -/

/-- A buffer that is a whole frame of the layout, whatever its fields are. -/
def IsFrame (k : Fin 3) (buf : Bytes) : Prop :=
  ∃ (state cmd : Byte) (serno : Serno) (p : Bytes), p.length ≤ 250 ∧ buf = frameOf k state cmd serno p

/-- A good header checksum, and the length byte 0 with nothing behind it, make a frame without payload. -/
theorem isFrame_of_zero (k : Fin 3) (a0 a1 a3 a4 a5 : Byte) :
    IsFrame k (withCrc [a0, a1, 0, a3, a4, a5]) := by
  refine ⟨a0, a1, sernoOfBytes a3 a4 a5, [], Nat.zero_le _, ?_⟩
  rw [frameOf_eq_buildFrame, buildFrame_eq, if_pos rfl, header_sernoOfBytes]
  rfl

/-- Both checksums good, and a length byte that counts the payload, make a frame with payload. -/
theorem isFrame_of_payload (k : Fin 3) (a0 a1 l a3 a4 a5 : Byte) {p : Bytes} (h1 : 1 ≤ p.length) (h : p.length ≤ 250)
    (hl : l.toNat = p.length + k.val) : IsFrame k (withCrc (withCrc [a0, a1, l, a3, a4, a5] ++ p)) := by
  have hbyte : lengthByte k p.length = l := BitVec.eq_of_toNat_eq ((lengthByte_toNat k h1 h).trans hl.symm)
  refine ⟨a0, a1, sernoOfBytes a3 a4 a5, p, h, ?_⟩
  rw [frameOf_eq_buildFrame, buildFrame_eq, if_neg (List.ne_nil_of_length_pos h1), header_sernoOfBytes, hbyte]

/-- A buffer of the declared length with a good header checksum is a frame, or its last byte is not the payload checksum. -/
theorem isFrame_or_pcrc_of_declared_len (k : Fin 3) {buf : Bytes} (h7 : 7 ≤ buf.length)
    (hc : byteAt buf 6 = crc8 (buf.take 6)) (hl : expectedLen k (byteAt buf 2) = some buf.length) :
    IsFrame k buf ∨ ∃ b, unpack k buf = .error (.pcrc b) := by
  obtain hs | ⟨a0, a1, a2, a3, a4, a5, c, rest, rfl⟩ := short_or_seven buf
  · omega
  have hc' : c = crc8 [a0, a1, a2, a3, a4, a5] := hc
  have hl' : expectedLen k a2 = some (rest.length + 7) := hl
  obtain ⟨h0, hn⟩ | ⟨m, h1, h250, hm, hn⟩ := expectedLen_eq_some hl'
  · obtain rfl : rest = [] := List.length_eq_zero_iff.mp (by omega)
    subst h0 hc'
    exact .inl (isFrame_of_zero k a0 a1 a3 a4 a5)
  · obtain ⟨p, e, rfl⟩ : ∃ p e, rest = p ++ [e] :=
      ⟨_, _, (List.dropLast_append_getLast (List.ne_nil_of_length_pos (by omega))).symm⟩
    obtain rfl : m = p.length := by
      rw [List.length_append, List.length_singleton] at hn
      omega
    by_cases he : e = crc8 (a0 :: a1 :: a2 :: a3 :: a4 :: a5 :: c :: p)
    · subst he hc'
      exact .inl (isFrame_of_payload k a0 a1 a2 a3 a4 a5 h1 h250 hm)
    · refine .inr ⟨e, ?_⟩
      rw [unpack_of_payload (h := hc') (hp := ⟨h1, h250⟩) (hl := hm), if_neg he]

/-- A buffer is a frame, or fails one of the four checks of rule R130. -/
theorem isFrame_or_error (k : Fin 3) (buf : Bytes) :
    IsFrame k buf ∨ ∃ e : BlockError, unpack k buf = .error e ∧ e.isStructuralError = true ∧
      e.code ∈ ([0x02, 0x03, 0x04, 0x05] : List Byte) := by
  by_cases h7 : buf.length < 7
  · exact .inr ⟨_, unpack_of_short k h7, rfl, by simp [BlockError.code]⟩
  have hge : 7 ≤ buf.length := Nat.le_of_not_lt h7
  by_cases hc : byteAt buf 6 = crc8 (buf.take 6)
  · by_cases hl : expectedLen k (byteAt buf 2) = some buf.length
    · obtain hf | ⟨b, hb⟩ := isFrame_or_pcrc_of_declared_len k hge hc hl
      · exact .inl hf
      · exact .inr ⟨_, hb, rfl, by simp [BlockError.code]⟩
    · exact .inr ⟨_, unpack_of_wrong_len k hge hc hl, rfl, by simp [BlockError.code]⟩
  · exact .inr ⟨_, unpack_of_wrong_hcrc k hge hc, rfl, by simp [BlockError.code]⟩

/-- Settles O41: an accepted buffer failed no check, so it is a frame, and a frame's record is its own. -/
theorem unpackAcceptsExactlyTheFrames : Obligations.UnpackAcceptsExactlyTheFrames := by
  intro s buf u
  rw [exec_frmUnpack_eq_ok_iff]
  constructor
  · intro hu
    obtain ⟨state, cmd, serno, p, hp, rfl⟩ | ⟨e, he, -, -⟩ := isFrame_or_error s.cfg.kLen buf
    · rw [unpack_frameOf _ _ _ _ hp] at hu
      exact ⟨state, cmd, serno, p, hp, rfl, (Except.ok.inj hu).symm⟩
    · rw [he] at hu
      cases hu
  · rintro ⟨state, cmd, serno, p, hp, rfl, rfl⟩
    exact unpack_frameOf s.cfg.kLen state cmd serno hp

/-- Settles O58: a buffer that is no frame fails one of the four checks. -/
theorem anyOtherBufferIsAStructuralError : Obligations.AnyOtherBufferIsAStructuralError := by
  intro s buf hne
  obtain hf | ⟨e, he, hclass, hcode⟩ := isFrame_or_error s.cfg.kLen buf
  · exact absurd hf hne
  · exact ⟨e, exec_frmUnpack_of_error he, hclass, hcode⟩

end Sys2Proof.Machine

/-! What `FRM.PACK` builds and refuses (41_framer.md rules R120 to R124). -/

namespace Sys2Proof.Machine

open Sys2Proof Sys2Proof.Spec

/-- The example of rule R120: without payload no byte of the frame depends on `K_LEN`. -/
theorem frameOf_example (k : Fin 3) :
    frameOf k 0xFD 0x02 33211 [] = [0xFD, 0x02, 0x00, 0xBB, 0x81, 0x00, 0x2D] := by
  have hheader : headerOf k 0xFD 0x02 33211 0 = [0xFD, 0x02, 0x00, 0xBB, 0x81, 0x00] := rfl
  calc frameOf k 0xFD 0x02 33211 []
    _ = headerOf k 0xFD 0x02 33211 0 ++ [crc8 (headerOf k 0xFD 0x02 33211 0)] := rfl
    _ = [0xFD, 0x02, 0x00, 0xBB, 0x81, 0x00, 0x2D] := by
      rw [hheader, crc8_example]
      rfl

/-- Settles O28: up to 250 payload bytes `pack` gives the frame of the layout, and above that its one error. -/
theorem packBuildsTheRequestFrame : Obligations.PackBuildsTheRequestFrame := by
  refine ⟨fun s serno cmd payload => ⟨fun h => ?_, fun h => exec_frmPack_of_error (pack_of_gt h)⟩, fun _ _ _ => rfl,
    frameOf_example⟩
  rw [frameOf_eq_buildFrame]
  exact exec_frmPack_of_ok (pack_of_le h)

/-- Settles O29: above 250 payload bytes `pack` has no frame. -/
theorem packRefusesOversizePayload : Obligations.PackRefusesOversizePayload :=
  fun _ _ _ p h => ⟨exec_frmPack_of_error (pack_of_gt (payload := some p) h), rfl, rfl⟩

theorem getElem?_buildFrame_zero (k : Fin 3) (state cmd : Byte) (serno : Serno) (p : Bytes) :
    (buildFrame k state cmd serno p)[0]? = some state := by
  obtain ⟨rest, hf⟩ := buildFrame_eq_header_append k state cmd serno p
  rw [hf]
  rfl

theorem getElem?_buildFrame_two (k : Fin 3) (state cmd : Byte) (serno : Serno) (p : Bytes) :
    (buildFrame k state cmd serno p)[2]? = some (lengthByte k p.length) := by
  obtain ⟨rest, hf⟩ := buildFrame_eq_header_append k state cmd serno p
  rw [hf]
  rfl

/-- Settles O30: `pack` reads an absent payload as the empty one. -/
theorem emptyPayloadIsTheAbsentPayload : Obligations.EmptyPayloadIsTheAbsentPayload := by
  intro s serno cmd
  refine ⟨rfl, buildFrame s.cfg.kLen reqMarker cmd serno [], ?frame, ?length, ?lengthByte⟩
  case frame => exact exec_frmPack_of_ok (pack_of_le (payload := some []) (Nat.zero_le _))
  case length => exact buildFrame_length s.cfg.kLen reqMarker cmd serno []
  case lengthByte => exact getElem?_buildFrame_two s.cfg.kLen reqMarker cmd serno []

/-- Settles O31: the length of a built frame is the one its length byte declares. -/
theorem packedFrameHasTheDeclaredLength : Obligations.PackedFrameHasTheDeclaredLength := by
  intro k serno cmd payload f h
  have hbound : f.length ≤ 258 := length_le_minBound_of_pack h
  obtain ⟨hp, rfl⟩ := pack_ok h
  generalize payload.getD [] = p at hp hbound ⊢
  refine ⟨?absent, ?present, hbound, getElem?_buildFrame_zero k reqMarker cmd serno p, ?declared⟩
  case absent =>
    rintro rfl
    exact ⟨buildFrame_length k reqMarker cmd serno [], byteAt_buildFrame_two k reqMarker cmd serno []⟩
  case present =>
    intro hne
    have h1 : 1 ≤ p.length := List.length_pos_of_ne_nil hne
    rw [buildFrame_length, if_neg (by omega), byteAt_buildFrame_two, lengthByte_toNat k h1 hp]
    exact ⟨rfl, rfl⟩
  case declared => rw [byteAt_buildFrame_two, expectedLen_lengthByte k hp, buildFrame_length]

end Sys2Proof.Machine

/-! Buffers that fail a check of `FRM.UNPACK` (41_framer.md rules R131 to R134), and the bit errors that make a frame fail
one (rule R141): the byte behind a sequence is its checksum exactly when the two together have checksum 0x00, and one
inverted bit changes that checksum. -/

namespace Sys2Proof.Machine

open Sys2Proof Sys2Proof.Spec

/-! ### Six header bytes and what follows -/

theorem byteAt_append_of_getElem? {h : Bytes} (t : Bytes) {i : Nat} {b : Byte} (hb : h[i]? = some b) :
    byteAt (h ++ t) i = b := by
  obtain ⟨hi, -⟩ := List.getElem?_eq_some_iff.mp hb
  rw [byteAt, List.getD_append _ _ _ _ hi, List.getD_eq_getElem?_getD, hb, Option.getD_some]

section header

variable {h : Bytes} (hh : h.length = 6) (c : Byte) (rest : Bytes)
include hh

theorem byteAt_header_append : byteAt (h ++ c :: rest) 6 = c := by
  rw [byteAt, List.getD_append_right _ _ _ _ hh.le, hh]
  rfl

theorem take_header_append : (h ++ c :: rest).take 6 = h := List.take_left' hh

theorem length_header_append : (h ++ c :: rest).length = 7 + rest.length := by
  rw [List.length_append, hh, List.length_cons]
  omega

end header

/-! ### The four refusals -/

/-- Settles O36: the length is the first check. -/
theorem unpackOfShortBufferIsTruncated : Obligations.UnpackOfShortBufferIsTruncated :=
  fun s _ h => ⟨exec_frmUnpack_of_error (unpack_of_short s.cfg.kLen h), rfl⟩

theorem expectedLen_zero (k : Fin 3) : expectedLen k 0 = some 7 := if_pos rfl

/-- Settles O38: in each of the cases of rule R133 the length byte does not declare the buffer's length. -/
theorem unpackRefusesAWrongLength : Obligations.UnpackRefusesAWrongLength := by
  intro s h rest l hh hl hwrong
  have hlen := length_header_append hh (crc8 h) rest
  have hbyte := byteAt_append_of_getElem? (crc8 h :: rest) hl
  have hne : expectedLen s.cfg.kLen l ≠ some (7 + rest.length) := by
    obtain ⟨hz, hrest⟩ | hrange := hwrong
    · obtain rfl : l = 0 := BitVec.eq_of_toNat_eq hz
      have hpos := List.length_pos_of_ne_nil hrest
      rw [expectedLen_zero, Ne, Option.some.injEq]
      omega
    · rw [expectedLen_ne_iff _ (ne_zero_of_toNat_ne_zero (by omega))]
      omega
  refine ⟨exec_frmUnpack_of_error ?_, rfl⟩
  rw [unpack_of_wrong_len, hbyte, hlen]
  · omega
  · rw [byteAt_header_append hh, take_header_append hh]
  · rwa [hbyte, hlen]

/-- Any buffer of the length its length byte declares for `m` payload bytes, with a good header checksum, whose last byte
is not the checksum of all before it, is `E_PCRC`. -/
theorem unpack_of_wrong_pcrc (k : Fin 3) {buf : Bytes} {m : Nat} (hm : 1 ≤ m ∧ m ≤ 250) (hlen : buf.length = 8 + m)
    (hc : byteAt buf 6 = crc8 (buf.take 6)) (hl : (byteAt buf 2).toNat = m + k.val)
    (hp : byteAt buf (7 + m) ≠ crc8 (buf.take (7 + m))) : unpack k buf = .error (.pcrc (byteAt buf (7 + m))) := by
  have h0 : byteAt buf 2 ≠ 0 := ne_zero_of_toNat_ne_zero (by omega)
  have hn : (byteAt buf 2).toNat - k.val = m := by omega
  have hc' : byteAt buf 6 = crc8 (slice buf 0 6) := hc
  rw [unpack, if_neg (by omega), if_neg (not_not.mpr hc'), if_neg h0, unpackPayload]
  dsimp only
  rw [hn, if_neg (by omega), if_neg (by omega)]
  exact if_pos hp

theorem byteAt_concat (s : Bytes) (c : Byte) : byteAt (s ++ [c]) s.length = c := by
  rw [byteAt, List.getD_append_right _ _ _ _ (le_refl _), Nat.sub_self]
  rfl

/-- Settles O39: the header and the lengths are good, so the last byte decides. -/
theorem unpackChecksThePayloadChecksum : Obligations.UnpackChecksThePayloadChecksum := by
  intro s h p l c hh hl h1 h250 hcount hc
  have hbuf : h ++ crc8 h :: (p ++ [c]) = (h ++ crc8 h :: p) ++ [c] := by simp
  have hlen : (h ++ crc8 h :: p).length = 7 + p.length := length_header_append hh (crc8 h) p
  have hlast : byteAt (h ++ crc8 h :: (p ++ [c])) (7 + p.length) = c := by
    rw [hbuf, ← hlen, byteAt_concat]
  have hbody : (h ++ crc8 h :: (p ++ [c])).take (7 + p.length) = h ++ crc8 h :: p := by
    rw [hbuf, List.take_left' hlen]
  refine ⟨exec_frmUnpack_of_error ?_, rfl⟩
  rw [unpack_of_wrong_pcrc (m := p.length), hlast]
  · exact ⟨h1, h250⟩
  · rw [length_header_append hh, List.length_append, List.length_singleton]
    omega
  · rw [byteAt_header_append hh, take_header_append hh]
  · rw [byteAt_append_of_getElem? _ hl, hcount]
  · rwa [hlast, hbody]

/-! ### One inverted bit -/

theorem length_flipBit (f : Bytes) (j : Nat) : (flipBit f j).length = f.length := List.length_modify ..

theorem take_flipBit (f : Bytes) (j n : Nat) : (flipBit f j).take n = flipBit (f.take n) j := List.take_modify ..

theorem take_flipBit_of_le (f : Bytes) {j n : Nat} (h : 8 * n ≤ j) : (flipBit f j).take n = f.take n := by
  rw [take_flipBit]
  refine List.modify_eq_self ?_
  have hle := List.length_take_le n f
  omega

theorem byteAt_flipBit_of_ne (f : Bytes) {j i : Nat} (h : j / 8 ≠ i) : byteAt (flipBit f j) i = byteAt f i := by
  rw [byteAt, byteAt, List.getD_eq_getElem?_getD, List.getD_eq_getElem?_getD, flipBit, List.getElem?_modify_ne _ _ h]

/-- A checksum byte is right exactly when it brings the register back to 0x00 (40_crc8.md §3). -/
theorem byteAt_eq_crc8_iff {f : Bytes} {n : Nat} (h : n < f.length) :
    byteAt f n = crc8 (f.take n) ↔ crc8 (f.take (n + 1)) = 0x00 := by
  rw [← List.take_append_getElem h, crc8_append_singleton, ← crc8Step_self (crc8 (f.take n)),
    (crc8Step_right_injective _).eq_iff, byteAt, List.getD_eq_getElem _ _ h]

/-- One inverted bit in the first bytes or in their checksum byte makes the checksum wrong. -/
theorem byteAt_flipBit_ne_crc8 {f : Bytes} {n j : Nat} (h : n < f.length) (hj : j < 8 * (n + 1))
    (hc : byteAt f n = crc8 (f.take n)) : byteAt (flipBit f j) n ≠ crc8 ((flipBit f j).take n) := by
  have hlen : (f.take (n + 1)).length = n + 1 := List.length_take_of_le h
  have hne := singleBitErrorsChangeTheChecksum (f.take (n + 1)) j (by rwa [hlen])
  rwa [Ne, byteAt_eq_crc8_iff (by rwa [length_flipBit]), take_flipBit, ← (byteAt_eq_crc8_iff h).mp hc]

/-- One inverted bit in a header or in its checksum is `E_HCRC`. -/
theorem unpack_flipBit_header (k : Fin 3) {f : Bytes} {j : Nat} (h7 : 7 ≤ f.length) (hc : byteAt f 6 = crc8 (f.take 6))
    (hj : j < 56) : unpack k (flipBit f j) = .error (.hcrc (byteAt (flipBit f j) 6)) :=
  unpack_of_wrong_hcrc k (by rwa [length_flipBit]) (byteAt_flipBit_ne_crc8 h7 hj hc)

/-- Settles O37: a seventh byte that is not the checksum fails the second check, and one inverted bit makes it such a byte. -/
theorem unpackChecksTheHeaderChecksumFirst : Obligations.UnpackChecksTheHeaderChecksumFirst := by
  refine ⟨fun s h c rest hh hc => ⟨exec_frmUnpack_of_error ?wrong, rfl⟩, fun s h rest j hh hj => ?flipped⟩
  case wrong =>
    rw [unpack_of_wrong_hcrc, byteAt_header_append hh]
    · rw [length_header_append hh]
      omega
    · rwa [byteAt_header_append hh, take_header_append hh]
  case flipped =>
    refine exec_frmUnpack_of_error (unpack_flipBit_header _ ?_ ?_ hj)
    · rw [length_header_append hh]
      omega
    · rw [byteAt_header_append hh, take_header_append hh]

/-- One inverted bit behind the header checksum of a frame is `E_PCRC`. -/
theorem unpack_flipBit_payload (k : Fin 3) (state cmd : Byte) (serno : Serno) {p : Bytes} {j : Nat} (h1 : 1 ≤ p.length)
    (h250 : p.length ≤ 250) (hj : 56 ≤ j) (hlt : j < 8 * (8 + p.length)) :
    unpack k (flipBit (buildFrame k state cmd serno p) j) =
      .error (.pcrc (byteAt (flipBit (buildFrame k state cmd serno p) j) (7 + p.length))) := by
  have hp : p ≠ [] := List.ne_nil_of_length_pos h1
  have hlen : (buildFrame k state cmd serno p).length = 8 + p.length := by
    rw [buildFrame_length, if_neg (by omega)]
  refine unpack_of_wrong_pcrc k ⟨h1, h250⟩ ?length ?hcrc ?lengthByte ?pcrc
  case length => rw [length_flipBit, hlen]
  case hcrc => rw [byteAt_flipBit_of_ne _ (by omega), take_flipBit_of_le _ (by omega), byteAt_buildFrame_hcrc]
  case lengthByte => rw [byteAt_flipBit_of_ne _ (by omega), byteAt_buildFrame_two, lengthByte_toNat k h1 h250]
  case pcrc =>
    exact byteAt_flipBit_ne_crc8 (by omega) (by omega) (byteAt_buildFrame_pcrc k state cmd serno hp)

/-- Settles O44: the inverted bit is in the header with its checksum, or behind it, where only a frame with payload has
bits. -/
theorem singleBitErrorsInFramesAreDetected : Obligations.SingleBitErrorsInFramesAreDetected := by
  intro s serno cmd payload f j h hj
  obtain ⟨hp, rfl⟩ := pack_ok h
  generalize payload.getD [] = p at hp hj ⊢
  have hlen := buildFrame_length s.cfg.kLen reqMarker cmd serno p
  refine exec_frmUnpack_of_error ?_
  split
  case isTrue hlt =>
    exact unpack_flipBit_header _ (by rw [hlen]; split <;> omega) (byteAt_buildFrame_hcrc ..) hlt
  case isFalse hge =>
    have h1 : 1 ≤ p.length := by
      by_contra h0
      rw [if_pos (by omega)] at hlen
      omega
    rw [if_neg (by omega)] at hlen
    have hlast : 8 + p.length - 1 = 7 + p.length := by omega
    rw [hlen, hlast]
    exact unpack_flipBit_payload _ _ _ _ h1 hp (by omega) (by omega)

end Sys2Proof.Machine

/-! Frames within frames: a frame with payload is the header with its checksum and then the payload with its own
(30_encoding.md rule R65), so a payload that is a header makes the tail a frame (70_reset_and_hazards.md rule R196). -/

namespace Sys2Proof.Machine

open Sys2Proof Sys2Proof.Spec

theorem frameOf_nil (k : Fin 3) (state cmd : Byte) (serno : Serno) :
    frameOf k state cmd serno [] = withCrc (header state cmd 0 serno) := by
  rw [frameOf_eq_buildFrame, buildFrame_eq, if_pos rfl]
  rfl

/-- The register is at the seed where the payload begins. -/
theorem frameOf_eq_withCrc_append (k : Fin 3) (state cmd : Byte) (serno : Serno) {p : Bytes} (hp : p ≠ []) :
    frameOf k state cmd serno p = withCrc (header state cmd (lengthByte k p.length) serno) ++ withCrc p := by
  rw [frameOf_eq_buildFrame, buildFrame_eq, if_neg hp, withCrc, crc8_withCrc_append, List.append_assoc]
  rfl

/-- A frame whose payload is the header of a frame without payload ends in that frame. -/
theorem frameOf_header (k : Fin 3) (state cmd innerState innerCmd : Byte) (serno innerSerno : Serno) :
    frameOf k state cmd serno (header innerState innerCmd 0 innerSerno) =
      withCrc (header state cmd (lengthByte k 6) serno) ++ frameOf k innerState innerCmd innerSerno [] := by
  have hne : header innerState innerCmd 0 innerSerno ≠ [] := List.cons_ne_nil _ _
  rw [frameOf_eq_withCrc_append _ _ _ _ hne, frameOf_nil, header_length]

theorem byteAt_frameOf_hcrc (k : Fin 3) (state cmd : Byte) (serno : Serno) (p : Bytes) :
    byteAt (frameOf k state cmd serno p) 6 = crc8 ((frameOf k state cmd serno p).take 6) := by
  rw [frameOf_eq_buildFrame, byteAt_buildFrame_hcrc]

theorem seven_le_length_frameOf (k : Fin 3) (state cmd : Byte) (serno : Serno) (p : Bytes) :
    7 ≤ (frameOf k state cmd serno p).length := by
  rw [frameOf_eq_buildFrame, buildFrame_length]
  split <;> omega

theorem drop_flipBit_of_lt (f : Bytes) {j n : Nat} (h : j < 8 * n) : (flipBit f j).drop n = f.drop n :=
  List.drop_modify_of_lt _ _ _ _ (by omega)

/-- One inverted bit of the header of a frame is `E_HCRC`, and its checksum byte, which is not hit, is the info. -/
theorem unpack_flipBit_frameOf (k : Fin 3) (state cmd : Byte) (serno : Serno) (p : Bytes) {j : Nat} (hj : j < 48) :
    unpack k (flipBit (frameOf k state cmd serno p) j) = .error (.hcrc (byteAt (frameOf k state cmd serno p) 6)) := by
  rw [unpack_flipBit_header k (seven_le_length_frameOf k state cmd serno p) (byteAt_frameOf_hcrc k state cmd serno p)
    (by omega), byteAt_flipBit_of_ne _ (by omega)]

/-- The tail of the second frame of `TailsThatAreFramesUnpackAsFrames`: a packed header with bit 0 inverted, whose checksum
is that of the payload. -/
theorem drop_frameOf_invertedHeader (k : Fin 3) (state cmd : Byte) (serno : Serno) :
    (frameOf k state cmd serno [0x19, 0xFC, 0x00, 0x00, 0x00, 0x00, 0x00]).drop 8 =
      flipBit (frameOf k 0xFD 0x00 0x000000 []) 0 := by
  have hcrc : crc8 [0x19, 0xFC, 0x00, 0x00, 0x00, 0x00, 0x00] = crc8 (header 0xFD 0x00 0x00 0x000000) := by
    decide +kernel
  rw [frameOf_eq_withCrc_append _ _ _ _ (List.cons_ne_nil _ _), frameOf_nil, withCrc, withCrc, withCrc, hcrc]
  rfl

/-- The header checksum of the marker with zero fields. -/
theorem byteAt_frameOf_zeros (k : Fin 3) : byteAt (frameOf k 0xFD 0x00 0x000000 []) 6 = 0x38 := by
  rw [frameOf_nil]
  decide +kernel

/-- Settles O57: the outer frame is seven bytes and the inner frame, both are frames, and one inverted header bit is
`E_HCRC`. -/
theorem tailsThatAreFramesUnpackAsFrames : Obligations.TailsThatAreFramesUnpackAsFrames := by
  constructor
  · intro s state cmd innerState innerCmd serno innerSerno inner outer hinner houter
    have htake : inner.take 6 = header innerState innerCmd 0 innerSerno := by
      rw [hinner, frameOf_nil]
      rfl
    have hdrop : outer.drop 7 = inner := by
      rw [houter, htake, frameOf_header, hinner]
      rfl
    refine ⟨?split, ?inner, ?outer, ?flipped, ?tail⟩
    case split => rw [← hdrop, List.take_append_drop]
    case inner =>
      rw [hdrop, hinner]
      exact exec_frmUnpack_eq_ok_iff.mpr (unpack_frameOf _ _ _ _ (Nat.zero_le _))
    case outer =>
      have hsize : (inner.take 6).length ≤ 250 := (List.length_take_le 6 inner).trans (by omega)
      rw [houter]
      exact exec_frmUnpack_eq_ok_iff.mpr (unpack_frameOf _ _ _ _ hsize)
    case flipped =>
      rw [houter]
      exact exec_frmUnpack_of_error (unpack_flipBit_frameOf _ _ _ _ _ (by omega))
    case tail => rw [drop_flipBit_of_lt _ (by omega), hdrop]
  · rintro s state cmd serno outer rfl
    refine ⟨drop_frameOf_invertedHeader s.cfg.kLen state cmd serno, exec_frmUnpack_of_error ?_⟩
    rw [drop_frameOf_invertedHeader, unpack_flipBit_frameOf _ _ _ _ _ (by omega), byteAt_frameOf_zeros]

end Sys2Proof.Machine

/-! What a response depends on (41_framer.md rule R142, 40_crc8.md rules R103, R113): only `CRC.READ` reads `ACC` for its
response, and only the framer reads the configuration. -/

namespace Sys2Proof.Machine

open Sys2Proof

theorem exec_next_iff {i : Instr} {s t : State} :
    exec i s = .next t ↔ (s.setAcc (accAfter i s.acc)).respond (responseOf s.cfg.kLen s.acc i) = t := by
  rw [exec_eq, Host.Outcome.next.injEq]

theorem getLast?_responses_of_exec {i : Instr} {s t : State} (h : exec i s = .next t) :
    t.responses.getLast? = some (responseOf s.cfg.kLen s.acc i) := by
  obtain rfl := exec_next_iff.mp h
  exact List.getLast?_concat

theorem acc_of_exec {i : Instr} {s t : State} (h : exec i s = .next t) : t.acc = accAfter i s.acc := by
  obtain rfl := exec_next_iff.mp h
  rfl

theorem responseOf_acc_irrelevant (k : Fin 3) (a b : Byte) {i : Instr} (h : i ≠ .crcRead) :
    responseOf k a i = responseOf k b i := by
  cases i with
  | crcRead => exact absurd rfl h
  | crcClr | crcFeed | crcCalc | frmPack | frmUnpack => rfl

theorem responseOf_kLen_irrelevant (k l : Fin 3) (acc : Byte) {i : Instr} (hpack : ∀ v c p, i ≠ .frmPack v c p)
    (hunpack : ∀ b, i ≠ .frmUnpack b) : responseOf k acc i = responseOf l acc i := by
  cases i with
  | frmPack v c p => exact absurd rfl (hpack v c p)
  | frmUnpack b => exact absurd rfl (hunpack b)
  | crcClr | crcFeed | crcRead | crcCalc => rfl

/-- Settles O49: the last response is `responseOf`, which reads `ACC` for `CRC.READ` alone and `K_LEN` for the framer
alone; and `accAfter` reads no configuration. -/
theorem responsesDependOnOperandsAlone : Obligations.ResponsesDependOnOperandsAlone := by
  refine ⟨fun i s t s' t' hread hk hs ht => ?framer, fun i s t s' t' hpack hunpack hacc hs ht => ⟨?acc, ?response⟩⟩
  case framer =>
    rw [getLast?_responses_of_exec hs, getLast?_responses_of_exec ht, hk, responseOf_acc_irrelevant _ s.acc t.acc hread]
  case acc => rw [acc_of_exec hs, acc_of_exec ht, hacc]
  case response =>
    rw [getLast?_responses_of_exec hs, getLast?_responses_of_exec ht, hacc,
      responseOf_kLen_irrelevant s.cfg.kLen t.cfg.kLen t.acc hpack hunpack]

end Sys2Proof.Machine

/-! Statuses and errors (60_exceptions.md rules R160 to R164): the seven codes of the table, the first failing check of
`FRM.UNPACK`, and what an error leaves behind, which is its response and nothing more. -/

namespace Sys2Proof.Machine

open Sys2Proof Sys2Proof.Spec

/-! ### The codes of the table -/

theorem BlockError.code_mem (e : BlockError) : e.code ∈ ([0x01, 0x02, 0x03, 0x04, 0x05, 0xFF] : List Byte) := by
  cases e with
  | oversize | trunc | hcrc | len | pcrc | illop => simp [BlockError.code]

theorem BlockError.code_ne_zero (e : BlockError) : e.code ≠ 0x00 :=
  ne_of_mem_of_not_mem e.code_mem (by decide)

/-- Settles O52: 0x00 is the code of `OK`, which alone has results, and the table gives an error one of the other six. -/
theorem statusCodesAreTheSevenOfTheTable : Obligations.StatusCodesAreTheSevenOfTheTable := by
  intro r
  cases r with
  | ok results => exact ⟨List.mem_cons_self, iff_of_true rfl rfl⟩
  | error e => exact ⟨List.mem_cons_of_mem _ e.code_mem, iff_of_false e.code_ne_zero Bool.false_ne_true⟩

/-! ### The first check that fails -/

/-- A buffer of the declared length with a good header checksum is accepted, unless it has a payload and its last byte is
not the checksum of the others. -/
theorem unpack_ok_or_wrong_last (k : Fin 3) {buf : Bytes} (h7 : 7 ≤ buf.length) (hc : byteAt buf 6 = crc8 (buf.take 6))
    (hl : expectedLen k (byteAt buf 2) = some buf.length) :
    (∃ u, unpack k buf = .ok u ∧ ¬(byteAt buf 2 ≠ 0x00 ∧ buf.getLast? ≠ some (crc8 buf.dropLast))) ∨
    (∃ b, unpack k buf = .error (.pcrc b) ∧ byteAt buf 2 ≠ 0x00 ∧ buf.getLast? ≠ some (crc8 buf.dropLast)) := by
  obtain hs | ⟨a0, a1, a2, a3, a4, a5, c, rest, rfl⟩ := short_or_seven buf
  · omega
  have hc' : c = crc8 [a0, a1, a2, a3, a4, a5] := hc
  have hl' : expectedLen k a2 = some (rest.length + 7) := hl
  obtain ⟨h0, hn⟩ | ⟨m, h1, h250, hm, hn⟩ := expectedLen_eq_some hl'
  · have hrest : rest = [] := List.length_eq_zero_iff.mp (by omega)
    rw [unpack_of_zero (h := hc') (h0 := h0), if_pos hrest]
    exact .inl ⟨_, rfl, fun h => h.1 h0⟩
  · obtain ⟨p, e, rfl⟩ := (List.eq_nil_or_concat' rest).resolve_left (List.ne_nil_of_length_pos (by omega))
    obtain rfl : m = p.length := by
      rw [List.length_append, List.length_singleton] at hn
      omega
    have h0 : a2 ≠ 0x00 := ne_zero_of_toNat_ne_zero (by omega)
    have hbuf : a0 :: a1 :: a2 :: a3 :: a4 :: a5 :: c :: (p ++ [e]) = (a0 :: a1 :: a2 :: a3 :: a4 :: a5 :: c :: p) ++ [e] := rfl
    rw [unpack_of_payload (h := hc') (hp := ⟨h1, h250⟩) (hl := hm), hbuf, List.getLast?_concat, List.dropLast_concat,
      (Option.some_injective Byte).ne_iff]
    split
    case isTrue he => exact .inl ⟨_, rfl, fun h => h.2 he⟩
    case isFalse he => exact .inr ⟨e, rfl, h0, he⟩

/-- Settles O42: each check in turn fails with its status, or passes and leaves the next one to decide. -/
theorem unpackReportsTheFirstFailingCheck : Obligations.UnpackReportsTheFirstFailingCheck := by
  intro s buf
  by_cases h7 : buf.length < 7
  · exact ⟨_, exec_frmUnpack_of_error (unpack_of_short _ h7), (if_pos h7).symm⟩
  have hge : 7 ≤ buf.length := Nat.le_of_not_lt h7
  have hsixth : buf[6]? = some (crc8 (buf.take 6)) ↔ byteAt buf 6 = crc8 (buf.take 6) := by
    rw [byteAt, List.getD_eq_getElem _ _ hge, List.getElem?_eq_getElem hge, Option.some.injEq]
  rw [if_neg h7]
  by_cases hc : byteAt buf 6 = crc8 (buf.take 6)
  case neg => exact ⟨_, exec_frmUnpack_of_error (unpack_of_wrong_hcrc _ hge hc), (if_pos (hsixth.not.mpr hc)).symm⟩
  rw [if_neg (not_not.mpr (hsixth.mpr hc))]
  by_cases hl : expectedLen s.cfg.kLen (byteAt buf 2) = some buf.length
  case neg => exact ⟨_, exec_frmUnpack_of_error (unpack_of_wrong_len _ hge hc hl), (if_pos hl).symm⟩
  rw [if_neg (not_not.mpr hl)]
  obtain ⟨u, hu, hlast⟩ | ⟨b, hb, hlast⟩ := unpack_ok_or_wrong_last _ hge hc hl
  · exact ⟨_, exec_frmUnpack_eq_ok_iff.mpr hu, (if_neg hlast).symm⟩
  · exact ⟨_, exec_frmUnpack_of_error hb, (if_pos hlast).symm⟩

/-! ### An error changes nothing but the list of responses -/

@[simp] theorem State.setAcc_self (s : State) : s.setAcc s.acc = s := rfl

/-- An operation that ends in an error wrote nothing. -/
theorem exec_of_error_response {i : Instr} {s t : State} {e : BlockError} (h : exec i s = .next t)
    (he : t.responses = s.responses ++ [.error e]) : t = answered s (.error e) := by
  obtain rfl := exec_next_iff.mp h
  have hresp : responseOf s.cfg.kLen s.acc i = .error e := List.singleton_injective (List.append_cancel_left he)
  have hacc : accAfter i s.acc = s.acc := accAfter_eq_self_of_error s.cfg.kLen s.acc (hresp ▸ e.code_ne_zero)
  rw [hresp, hacc, State.setAcc_self]
  rfl

theorem issue_of_error_response {r : Request} {s t : State} {e : BlockError} (h : issue r s = .next t)
    (he : t.responses = s.responses ++ [.error e]) : t = answered s (.error e) := by
  obtain ⟨i, -, -, hexec⟩ | ⟨op, -, rfl⟩ := issue_cases h
  · exact exec_of_error_response hexec he
  · exact congrArg (answered s) (List.singleton_injective (List.append_cancel_left he))

/-! ### No step reads the earlier responses -/

/-- What a request is answered, and what it leaves, is the same after every list of earlier responses. -/
theorem issue_after_responses {r : Request} {s u : State} (h : issue r s = .next u) :
    ∃ q, u.responses = s.responses ++ [q] ∧
      ∀ log, issue r { s with responses := log } = .next { u with responses := log ++ [q] } := by
  obtain ⟨i, hd, hb, hexec⟩ | ⟨op, hd, rfl⟩ := issue_cases h
  · obtain rfl := exec_next_iff.mp hexec
    exact ⟨_, rfl, fun log => (issue_of_decode (s := { s with responses := log }) hd hb).trans (exec_eq i _)⟩
  · exact ⟨_, rfl, fun log => issue_of_illegalOp hd⟩

theorem step_after_responses {s u : State} (h : step s = .next u) :
    ∃ rs, u.responses = s.responses ++ rs ∧
      ∀ log, step { s with responses := log } = .next { u with responses := log ++ rs } := by
  obtain ⟨hs, rfl⟩ | ⟨r, rest, hs, hissue⟩ := step_cases h
  · refine ⟨[], (List.append_nil _).symm, fun log => ?_⟩
    rw [List.append_nil]
    exact step_nil hs
  · obtain ⟨q, hq, hlog⟩ := issue_after_responses hissue
    exact ⟨[q], hq, fun log => (step_cons (s := { s with responses := log }) hs).trans (hlog log)⟩

/-! ### A refusal reads the configuration alone -/

theorem reject_refused_congr {d : DecodeError} {q : Refusal} {s : State} (t : State) (h : reject d s = .refused q) :
    reject d t = .refused q := by
  cases d with
  | illegalOp => cases h
  | wideOp | wideByte | wideSerno | operandMismatch => exact h

theorem issue_of_not_withinBound {r : Request} {i : Instr} {s : State} (hd : decode r = .ok i)
    (hb : ¬withinBound s.cfg i = true) :
    issue r s = .refused (.inputTooLong (inputLength i) (s.cfg.maxIn.getD 0)) := by
  simp [issue, hd, hb]

theorem issue_refused_congr {r : Request} {q : Refusal} {s t : State} (hcfg : t.cfg = s.cfg)
    (h : issue r s = .refused q) : issue r t = .refused q := by
  cases hd : decode r with
  | ok i =>
    by_cases hb : withinBound s.cfg i = true
    · rw [issue_of_decode hd hb, exec_eq] at h
      cases h
    · rw [issue_of_not_withinBound hd hb] at h
      rwa [issue_of_not_withinBound hd (hcfg ▸ hb), hcfg]
  | error d =>
    rw [issue_of_decode_error hd] at h ⊢
    exact reject_refused_congr t h

theorem step_refused_congr {q : Refusal} {s t : State} (hcfg : t.cfg = s.cfg) (hscript : t.script = s.script)
    (h : step s = .refused q) : step t = .refused q := by
  cases hs : s.script with
  | nil =>
    rw [step_nil hs] at h
    cases h
  | cons r rest =>
    rw [step_cons hs] at h
    rw [step_cons (hscript.trans hs)]
    exact issue_refused_congr (s := { s with script := rest }) hcfg h

/-- Settles O50: the error is one more response after which the state is as before, and no step reads the earlier
responses. -/
theorem errorsLeaveNoTrace : Obligations.ErrorsLeaveNoTrace := by
  intro s t r rest e hs hstep hresp
  rw [step_cons hs] at hstep
  obtain rfl := issue_of_error_response hstep hresp
  refine ⟨rfl, rfl, fun u hu => ?_, fun q => ⟨step_refused_congr rfl rfl, step_refused_congr rfl rfl⟩⟩
  obtain ⟨rs, hrs, hlog⟩ := step_after_responses hu
  refine ⟨rs, hrs, ?_⟩
  rw [List.append_cons]
  exact hlog (s.responses ++ [.error e])

end Sys2Proof.Machine

/-! Reset and runs (70_reset_and_hazards.md rules R190, R192): the machine after reset, and the run of a script whose
every request is admissible. -/

namespace Sys2Proof.Machine

open Sys2Proof

/-! ### The machine after reset -/

/-- Settles O1: the fields are those of `resetWith`, and with an empty script the step is idle. -/
theorem resetClearsAccumulatorAndIdles : Obligations.ResetClearsAccumulatorAndIdles :=
  ⟨fun cfg => ⟨State.resetWith_acc cfg, State.resetWith_cfg cfg, State.resetWith_script cfg,
    State.resetWith_responses cfg, step_nil (State.resetWith_script cfg)⟩, rfl⟩

theorem inv_resetWith {cfg : BlockConfig} (h : cfg.wf = true) : Inv (State.resetWith cfg) :=
  ⟨h, List.forall_mem_nil _⟩

/-- The block as built has no `MAX_IN`, so its configuration is allowed whatever its `K_LEN` is. -/
theorem built_wf : Config.built.wf = true := rfl

/-- Settles O2: nothing has been answered yet, so only the configuration is asked for. -/
theorem invariantHoldsAtReset : Obligations.InvariantHoldsAtReset :=
  ⟨fun _ => inv_resetWith, inv_resetWith built_wf⟩

/-! ### The run of an admissible script -/

theorem exists_step_of_admissible {s : State} {r : Request} {rest : List Request} (hs : s.script = r :: rest)
    (h : admissible s.cfg r = true) :
    ∃ (t : State) (q : Response), step s = .next t ∧ t.cfg = s.cfg ∧ t.script = rest ∧
      t.responses = s.responses ++ [q] := by
  obtain ⟨t, ht⟩ := (issue_answers_iff r { s with script := rest }).mpr h
  obtain ⟨hcfg, hscript, q, hq⟩ := issue_frame ht
  exact ⟨t, q, (step_cons hs).trans ht, hcfg, hscript, hq⟩

/-- No step changes the configuration, so the rest of the script stays admissible. -/
theorem exists_run_of_admissible {s : State} {script : List Request} (hs : s.script = script)
    (h : ∀ r ∈ script, admissible s.cfg r = true) :
    ∃ t : State, Host.Core.run core script.length s = .next t ∧ t.script = [] ∧ t.cfg = s.cfg ∧
      ∃ rs : List Response, rs.length = script.length ∧ t.responses = s.responses ++ rs := by
  induction script generalizing s with
  | nil => exact ⟨s, run_zero s, hs, rfl, [], rfl, (List.append_nil _).symm⟩
  | cons r rest ih =>
    obtain ⟨hr, hrest⟩ := List.forall_mem_cons.mp h
    obtain ⟨t, q, hstep, hcfg, hscript, hresp⟩ := exists_step_of_admissible hs hr
    obtain ⟨u, hrun, hnil, hucfg, rs, hlen, hrs⟩ := ih hscript (hcfg ▸ hrest)
    refine ⟨u, (run_succ hstep).trans hrun, hnil, hucfg.trans hcfg, q :: rs, congrArg Nat.succ hlen, ?_⟩
    rw [hrs, hresp]
    exact (List.append_cons ..).symm

/-- Settles O9: each request of the script is answered in turn, by one response. -/
theorem safeRunAnswersEveryRequest : Obligations.SafeRunAnswersEveryRequest :=
  fun _ => exists_run_of_admissible rfl

end Sys2Proof.Machine

/-! Buffers that are not one whole frame (70_reset_and_hazards.md rules R194, R196): a good header whose length byte does
not declare the buffer's length is `E_LEN`; a second part, or a reply behind stray bytes, is a buffer like any other, and
its first seven bytes are no header. -/

namespace Sys2Proof.Machine

open Sys2Proof Sys2Proof.Spec

/-! ### A good header in front of a wrong length -/

theorem unpack_of_header_prefix (k : Fin 3) {state cmd l : Byte} {serno : Serno} {buf : Bytes}
    (h : withCrc (header state cmd l serno) <+: buf) (hl : expectedLen k l ≠ some buf.length) :
    unpack k buf = .error (.len l buf.length) := by
  have h7 : 7 ≤ buf.length := h.length_le
  obtain ⟨rest, rfl⟩ := h
  exact unpack_of_wrong_len k h7 rfl hl

theorem header_prefix_frameOf (k : Fin 3) (state cmd : Byte) (serno : Serno) (p : Bytes) :
    withCrc (header state cmd (lengthByte k p.length) serno) <+: frameOf k state cmd serno p := by
  obtain ⟨rest, hf⟩ := buildFrame_eq_header_append k state cmd serno p
  rw [frameOf_eq_buildFrame, hf]
  exact List.prefix_append _ rest

theorem length_frameOf (k : Fin 3) (state cmd : Byte) (serno : Serno) (p : Bytes) :
    (frameOf k state cmd serno p).length = if p.length = 0 then 7 else 8 + p.length := by
  rw [frameOf_eq_buildFrame, buildFrame_length]

/-! ### Another length convention (rule R194) -/

/-- A payload's length byte under one `K_LEN` declares another length under every other. -/
theorem expectedLen_lengthByte_ne {k k' : Fin 3} (hk : k' ≠ k) {n : Nat} (h1 : 1 ≤ n) (h : n ≤ 250) :
    expectedLen k (lengthByte k' n) ≠ some (8 + n) := by
  have hl := lengthByte_toNat k' h1 h
  intro hdeclared
  obtain ⟨-, h7⟩ | ⟨m, -, -, hm, hn⟩ := expectedLen_eq_some hdeclared
  · omega
  · exact hk (Fin.ext (by omega))

theorem frameOf_nil_kLen_irrelevant (k k' : Fin 3) (state cmd : Byte) (serno : Serno) :
    frameOf k state cmd serno [] = frameOf k' state cmd serno [] := by
  rw [frameOf_nil, frameOf_nil]

/-- Settles O45: the length byte of a payload declares another length, and without payload the frame is the same. -/
theorem otherLengthConventionIsRefused : Obligations.OtherLengthConventionIsRefused := by
  refine ⟨fun s k state cmd serno p hk h1 h => exec_frmUnpack_of_error ?payload, fun s k state cmd serno => ?absent⟩
  case payload =>
    have hlen : (frameOf k state cmd serno p).length = 8 + p.length := by
      rw [length_frameOf, if_neg (by omega)]
    have hbyte : lengthByte k p.length = BitVec.ofNat 8 (p.length + k.val) := if_neg (by omega)
    have hne : expectedLen s.cfg.kLen (lengthByte k p.length) ≠ some (frameOf k state cmd serno p).length := by
      rw [hlen]
      exact expectedLen_lengthByte_ne hk h1 h
    rw [unpack_of_header_prefix _ (header_prefix_frameOf k state cmd serno p) hne, hlen, hbyte]
  case absent =>
    rw [frameOf_nil_kLen_irrelevant k s.cfg.kLen]
    exact exec_frmUnpack_eq_ok_iff.mpr (unpack_frameOf _ _ _ _ (Nat.zero_le _))

/-! ### Frames cut short, and frames with bytes behind them (rule R196) -/

/-- Whatever begins with a frame's header and its checksum and has not the frame's length is `E_LEN`. -/
theorem unpack_of_other_length (k : Fin 3) {state cmd : Byte} {serno : Serno} {p buf : Bytes} (h : p.length ≤ 250)
    (hpre : withCrc (header state cmd (lengthByte k p.length) serno) <+: buf)
    (hne : buf.length ≠ (frameOf k state cmd serno p).length) :
    unpack k buf = .error (.len (BitVec.ofNat 8 (lengthValue k.val p.length)) buf.length) := by
  have hdeclared : expectedLen k (lengthByte k p.length) ≠ some buf.length := by
    rw [expectedLen_lengthByte k h, ← length_frameOf k state cmd serno]
    exact fun heq => hne (Option.some.inj heq).symm
  rw [unpack_of_header_prefix k hpre hdeclared, lengthByte_eq_lengthValue]

/-- Settles O46: seven bytes of the frame are the header with its checksum, whose length byte declares the whole frame. -/
theorem cutOrPaddedFramesAreRefused : Obligations.CutOrPaddedFramesAreRefused := by
  intro s state cmd serno p h
  have h7 := seven_le_length_frameOf s.cfg.kLen state cmd serno p
  have hpre := header_prefix_frameOf s.cfg.kLen state cmd serno p
  refine ⟨fun m hm => exec_frmUnpack_of_error ?short, fun m hm hlt => exec_frmUnpack_of_error ?cut,
    fun extra hextra => exec_frmUnpack_of_error ?padded⟩
  case short =>
    have hlen : ((frameOf s.cfg.kLen state cmd serno p).take m).length = m := List.length_take_of_le (by omega)
    rw [unpack_of_short _ (hlen.trans_lt hm), hlen]
  case cut =>
    have hlen : ((frameOf s.cfg.kLen state cmd serno p).take m).length = m := List.length_take_of_le hlt.le
    rw [unpack_of_other_length _ h (List.prefix_take_iff.mpr ⟨hpre, hm⟩) (hlen.trans_ne hlt.ne), hlen]
  case padded =>
    have hpos := List.length_pos_of_ne_nil hextra
    have hlen := List.length_append (as := frameOf s.cfg.kLen state cmd serno p) (bs := extra)
    rw [unpack_of_other_length _ h (hpre.trans (List.prefix_append _ extra)) (by omega), hlen]

/-! ### Each buffer alone (rules R22, R130) -/

theorem exec_frmUnpack_eq_answered (buf : Bytes) (s : State) :
    exec (.frmUnpack buf) s = .next (answered s (responseOf s.cfg.kLen s.acc (.frmUnpack buf))) :=
  exec_eq (.frmUnpack buf) s

theorem responseOf_frmUnpack_of_error {k : Fin 3} (acc : Byte) {buf : Bytes} {e : BlockError}
    (h : unpack k buf = .error e) : responseOf k acc (.frmUnpack buf) = .error e := by
  rw [responseOf, h]

/-- Settles O55: the response reads `K_LEN` and the buffer, and the first response changes no `K_LEN`. -/
theorem eachBufferIsAnsweredAlone : Obligations.EachBufferIsAnsweredAlone := fun s first second =>
  ⟨_, _, exec_frmUnpack_eq_answered first s, exec_frmUnpack_eq_answered second (answered s _),
    exec_frmUnpack_eq_answered second s,
    fun hshort => responseOf_frmUnpack_of_error s.acc (unpack_of_short _ hshort),
    fun h7 hc => responseOf_frmUnpack_of_error s.acc (unpack_of_wrong_hcrc _ h7 hc),
    fun h7 hc hl => responseOf_frmUnpack_of_error s.acc (unpack_of_wrong_len _ h7 hc hl)⟩

/-! ### Second parts and stray bytes that fail the header check -/

/-- A buffer that answers `E_HCRC` answers neither `E_TRUNC` nor `E_LEN`. -/
theorem not_trunc_or_len_of_hcrc {s : State} {buf : Bytes} {b : Byte} (h : unpack s.cfg.kLen buf = .error (.hcrc b)) :
    ¬∃ e : BlockError, exec (.frmUnpack buf) s = .next (answered s (.error e)) ∧ (e.code = 0x02 ∨ e.code = 0x04) := by
  rintro ⟨e, he, hcode⟩
  rw [exec_frmUnpack_of_error h, Host.Outcome.next.injEq, (answered_injective s).eq_iff] at he
  cases he
  simp [BlockError.code] at hcode

/-- A reply of nine bytes without its first: under each `K_LEN` the payload byte stands where the header checksum of the
second part would. -/
theorem unpack_second_part (k : Fin 3) :
    unpack k ((frameOf k 0x00 0x0B 33211 [0x01]).drop 1) = .error (.hcrc 0x01) := by
  revert k
  decide +kernel

/-- Refutes O47: from reset, whatever `K_LEN` is, the second part of a reply of nine bytes split after its first byte is
`E_HCRC`. -/
theorem not_secondPartOfSplitReplyIsTruncatedOrWrongLength :
    ¬Obligations.SecondPartOfSplitReplyIsTruncatedOrWrongLength := fun h =>
  not_trunc_or_len_of_hcrc (unpack_second_part _)
    (h State.reset 0x00 0x0B 33211 [0x01] 1 (by decide) (by decide) (by rw [length_frameOf]; decide))

/-- The request of rule R120's example behind one zero byte. -/
theorem unpack_stray_byte (k : Fin 3) :
    unpack k ([0x00] ++ frameOf k 0xFD 0x02 33211 []) = .error (.hcrc 0x00) := by
  rw [frameOf_example]
  exact unpack_of_hcrc k _ _ _ _ _ _ _ _ (by decide +kernel)

/-- Refutes O56: from reset, whatever `K_LEN` is, a reply of seven bytes behind one zero byte is `E_HCRC`. -/
theorem not_strayBytesBeforeAReplyAreTruncatedOrWrongLength :
    ¬Obligations.StrayBytesBeforeAReplyAreTruncatedOrWrongLength := fun h =>
  not_trunc_or_len_of_hcrc (unpack_stray_byte _)
    (h State.reset 0xFD 0x02 33211 [] [0x00] (Nat.zero_le _) (List.cons_ne_nil _ _))

end Sys2Proof.Machine
